-- ==== Sys2Proof/Word.lean ====
section
/-! DEFINITION. The word types of the block (spec/10_state.md R20, R27; spec/30_encoding.md R61, R69, R75).
Only the types: the fields of each are read by the definitions of Sys2Proof/Decode.lean and Sys2Proof/Machine/. -/

namespace Sys2Proof

/-- A sample: an unsigned integer 0 to 255 (R22; the wires `s_data[7:0]` of R75). -/
abbrev Sample := BitVec 8

/-- A transaction word, one field `op` and one field `data` (R60, R61). -/
abbrev TxWord := BitVec 10

/-- A code on the control port (the wires `c_code[1:0]` of R75). -/
abbrev CtrlCode := BitVec 2

/-- The bits of an IEEE 754 binary64 value, one amplitude lane (R69). -/
abbrev F64 := BitVec 64

/-- The 64-bit STATUS word (R27). -/
abbrev StatusWord := BitVec 64

end Sys2Proof
end

