-- ==== Sys2Proof/Config.lean ====
section
/-! DEFINITION. What is fixed when the block is elaborated (spec/00_scope.md R7 to R12) and the free values: the amplitude the spec
leaves to a build (spec/42_tone_analyzer.md R146, spec/93_implementation_defined.md I1), and an AMP_TOL that is a real number (R11, I2). -/

namespace Sys2Proof

/-- A ratio of two natural numbers: a rational SAMPLE_RATE (R7), for which elaboration is computed. -/
structure Ratio where
  num : Nat
  den : Nat
deriving DecidableEq, Repr

/-- FREE VALUES (R11; log 2): real numbers > 0 of which nothing else is known, so that each may be any real AMP_TOL. It has no body. It
stands in propositions only, and no step computes with it. -/
noncomputable opaque Config.realTolerance (n : Nat) : Set.Ioi (0 : ℝ)

/-- AMP_TOL (R11), a real number > 0, as plain data. DESIGN CHOICE, safe (log 2). -/
inductive Tolerance where
  /-- A rational value, as the reference 1.0e-6 is. -/
  | ratio (num den : Nat)
  /-- Any real > 0: a free value, under a number. -/
  | real (n : Nat)
deriving DecidableEq, Repr

/-- The real number an AMP_TOL stands for (R11). -/
noncomputable def Tolerance.value : Tolerance → ℝ
  | .ratio num den => num / den
  | .real n => Config.realTolerance n

/-- The configuration of one block, fixed at elaboration (R28). The capacities are the parameters, as R8 asks of a model. -/
structure Config where
  /-- PCAP, the capacity of the PauseWindow (R8). -/
  pcap : Nat
  /-- SCAP, the capacity of the SymbolWindow (R8). -/
  scap : Nat
  /-- OUT_DEPTH, the capacity of the event FIFO; `none` is the value ∞ of R10. -/
  outDepth : Option Nat
  /-- AMP_TOL (R11). -/
  ampTol : Tolerance
deriving DecidableEq, Repr

/-- The reference configuration: PCAP = 67 and SCAP = 288 (R12), OUT_DEPTH = ∞ (R10, the source-faithful value), AMP_TOL = 1.0e-6 (R11).
DESIGN CHOICE, safe (log 1): R10 gives 16 as the reference of a hardware build and ∞ as that of a source-faithful model. -/
def Config.reference : Config where
  pcap := 67
  scap := 288
  outDepth := none
  ampTol := .ratio 1 1000000

/-- FREE VALUE (R146, I1; log 4): the binary64 value of a lane with bin number `k` for the full window `w` (N is the length of `w`).
It is a function of the bin number, the window and the constraint `allowed` alone, so equal windows give equal lanes; the only thing
known of it is its type, that it meets `allowed`. It has no body. `Machine/ToneAnalyzer.lean` gives `allowed` (R146) and a
value that meets it, which shows that the constraint can be met and is otherwise unused. -/
opaque Config.amplitude (k : Nat) (w : List Sample) (allowed : F64 → Prop) [Inhabited {a : F64 // allowed a}] :
    {a : F64 // allowed a}

end Sys2Proof
end

