-- ==== Sys2Proof/Syntax.lean ====
section
/-! DEFINITION. The transactions of the block (spec/30_encoding.md R65, spec/opcode_table.json): one constructor per row. -/

namespace Sys2Proof

/-- The four transactions of the opcode map (R65). The only operand is SAMPLE's 8-bit immediate (R74). -/
inductive Instr where
  /-- SAMPLE v (spec/40_window_manager.md R100). -/
  | sample (v : Sample)
  /-- START (spec/43_control.md R161). -/
  | start
  /-- STOP (spec/43_control.md R163). -/
  | stop
  /-- RSVD, a reserved control code (spec/30_encoding.md R64, spec/43_control.md R165). -/
  | rsvd
deriving DecidableEq, Repr

end Sys2Proof
end

