-- ==== Sys2Proof/WellFormed.lean ====
section
/-! DEFINITION. The checks on what is given to the block: its transactions (spec/30_encoding.md R62, R74) and its configuration
(spec/00_scope.md R9, R10, R11). -/

namespace Sys2Proof

/-- Every transaction is well formed: all 256 sample values are legal, the fixed-width type precludes a malformed one (R62), and
the others have no operand (R74). -/
def Instr.wellFormed : Instr → Bool
  | .sample _ => true
  | .start => true
  | .stop => true
  | .rsvd => true

/-- A window capacity is legal in 1 to 65535 (R9). -/
def Config.legalCapacity (n : Nat) : Bool := 1 ≤ n && n ≤ 65535

/-- OUT_DEPTH is an integer of at least 2, or ∞ (R10). -/
def Config.legalDepth : Option Nat → Bool
  | none => true
  | some d => 2 ≤ d

/-- AMP_TOL is a number greater than 0 (R11). -/
def Config.legalTolerance : Tolerance → Bool
  | .ratio num den => 0 < num && 0 < den
  | .real _ => true

/-- A legal configuration (R9, R10, R11; I7): for any other no block exists. -/
def Config.legal (c : Config) : Bool :=
  Config.legalCapacity c.pcap && Config.legalCapacity c.scap && Config.legalDepth c.outDepth && Config.legalTolerance c.ampTol

end Sys2Proof
end

