-- ==== Sys2Proof/Machine/State.lean ====
section
/-! DEFINITION. The state of the block (spec/10_state.md R20 to R33), the state of the agents around it (spec/60_exceptions.md R207,
R208), its reset value (R32, R220), and the reasons a step can stop. -/

namespace Sys2Proof.Machine

/-- RUN (R21). -/
inductive RunState where
  | stopped
  | running
deriving DecidableEq, Repr

/-- HOOK, the handset state (R24). -/
inductive HookState where
  | onHook
  | offHook
deriving DecidableEq, Repr

/-- An output event (R3, R66). Only AMPS carries lanes; the others show +0.0 in every lane at the port (R68). -/
inductive Event where
  /-- The AmplitudeVector, lane j being target frequency j (R67). -/
  | amps (lanes : Vector F64 8)
  /-- A silence classification (R104). -/
  | pause
  /-- HOOK went OnHook to OffHook (R125). -/
  | offHook
  /-- HOOK went OffHook to OnHook (R126). -/
  | onHook
deriving DecidableEq, Repr

/-- One move of the world outside the block (R50, R207, R208). -/
inductive HostMove where
  /-- The next word of a program is presented on its port (R60). -/
  | word (w : TxWord)
  /-- The controller drives a code on the control port directly; this is how 0b00 comes there (R64). -/
  | control (code : CtrlCode)
  /-- The consumer is ready to take an event (`e_ready = 1`, R75). -/
  | take
  /-- `rst` is asserted (R220). -/
  | rst
  /-- Nothing new is presented, and the boundary is left to a sample that waits at the sample port (R50, R101). -/
  | sampleTurn
deriving DecidableEq, Repr

/-- The state. The first seven fields are the block's: its configuration and the tuple of R20. The last three belong to the agents
around it: DESIGN CHOICE, safe (log 3). -/
structure State where
  /-- The configuration, fixed at elaboration; no step writes it (R28, R166). -/
  cfg : Config
  /-- RUN (R21). -/
  run : RunState
  /-- P, the PauseWindow, oldest sample first (R22). -/
  p : List Sample
  /-- S, the SymbolWindow, oldest sample first (R23). -/
  s : List Sample
  /-- HOOK (R24). -/
  hook : HookState
  /-- ERR (R25). -/
  err : Bool
  /-- OUT, the output event FIFO, head first (R26). -/
  out : List Event
  /-- The samples presented at the sample port and not accepted yet, oldest first (R101, R220). -/
  samplePort : List Sample
  /-- What the host does next, in order: the free interleaving of R50. -/
  host : List HostMove
  /-- The events the consumer has taken, oldest first (R26, R75). -/
  taken : List Event
deriving DecidableEq, Repr

/-- The reasons a step stops with a fault: there are none. The block raises no exception, has no trap, and no sample value and no
computation can cause an error (R200, R201, R202, R205). Nobody raises one, which is as the spec says (safe). -/
inductive Fault where
deriving DecidableEq, Repr

/-- The reasons a step is refused. -/
inductive Refusal where
  /-- Raised by an arm of `exec` whose instruction has no meaning yet (no arm is left like that); safe. -/
  | notModelled (mnemonic : String)
  /-- Raised by `step` in a state whose configuration is not legal: no block exists for it (R9, R10, R11, I7); safe. -/
  | illegalConfiguration
deriving DecidableEq, Repr

/-- The block elaborated with configuration `c`, right after reset (R32, R220), with nothing presented and nothing taken. -/
def State.resetWith (c : Config) : State where
  cfg := c
  run := .stopped
  p := []
  s := []
  hook := .onHook
  err := false
  out := []
  samplePort := []
  host := []
  taken := []

/-- The machine right after reset, in the reference configuration (R12, R32). -/
def State.reset : State := State.resetWith Config.reference

end Sys2Proof.Machine
end

