-- ==== Sys2Proof/Machine/Fetch.lean ====
section
/-! DEFINITION. Which move comes next. The block fetches nothing (spec/20_memory.md R51) and has no program counter (spec/10_state.md
R28): the next step is chosen by what a port presents (spec/43_control.md R168), and the order of the ports is the host's (R50). -/

namespace Sys2Proof.Machine

/-- The state without the host's next move. -/
def State.dropMove (st : State) : State := { st with host := st.host.tail }

/-- The host's next move, and the state without it. A host with no move left leaves the boundary to a waiting sample; so a sample that
stays acceptable is taken in the end (R228). -/
def State.nextMove (st : State) : HostMove × State :=
  match st.host with
  | [] => (.sampleTurn, st.dropMove)
  | m :: _ => (m, st.dropMove)

/-- The host's next move is to present the word `w`. -/
def State.presentNext (w : TxWord) (st : State) : State := { st with host := .word w :: st.host }

end Sys2Proof.Machine
end

