-- ==== Sys2Proof/Decode.lean ====
section
/-! DEFINITION. The transaction word: its fields, the decoder, the port fields it stands for, and the encoder
(spec/30_encoding.md R60 to R65, R70, R73, R74). -/

namespace Sys2Proof

/-! ### Fields (R61) -/

/-- `op = word[9:8]`, the transaction selector. -/
def TxWord.op (w : TxWord) : BitVec 2 := w.extractLsb' 8 2

/-- `data = word[7:0]`, the sample value of a SAMPLE. -/
def TxWord.data (w : TxWord) : BitVec 8 := w.extractLsb' 0 8

/-- The word with the given fields, `op` in the high bits. -/
def TxWord.ofFields (op : BitVec 2) (data : BitVec 8) : TxWord := op ++ data

/-! ### Decoding -/

/-- What a control-port code means: START, STOP, and the two reserved codes 0b11 and 0b00 (R63, R64). -/
def decodeControl (code : CtrlCode) : Instr :=
  if code = 0b01#2 then .start
  else if code = 0b10#2 then .stop
  else .rsvd

/-- The opcode map (R65): total, by `op` alone. The data of a word whose `op` is not SAMPLE's is not read (R63, R64). -/
def decode (w : TxWord) : Instr :=
  if w.op = 0b00#2 then .sample w.data
  else if w.op = 0b01#2 then .start
  else if w.op = 0b10#2 then .stop
  else .rsvd

/-- The transfer a word is presented as: the block itself never sees the word (R60). -/
inductive PortTransfer where
  /-- A transfer on the sample port, with its `s_data` (R62). -/
  | sample (sData : Sample)
  /-- A transfer on the control port, with its `c_code` (R63, R64). -/
  | control (cCode : CtrlCode)
deriving DecidableEq, Repr

/-- The port and the port fields that a word stands for (R62, R63, R64). -/
def portTransfer (w : TxWord) : PortTransfer :=
  if w.op = 0b00#2 then .sample w.data else .control w.op

/-- What the block takes a port transfer to be. -/
def PortTransfer.instr : PortTransfer → Instr
  | .sample v => .sample v
  | .control c => decodeControl c

/-- Why a bit string or a number is no transaction word or program. -/
inductive DecodeError where
  /-- A number of more than 10 bits is no word: every word is exactly 10 bits (R61). -/
  | tooWide
  /-- A program whose bits do not divide into words of 10 leaves this many bits over (R73). -/
  | leftover (nbits : Nat)
deriving DecidableEq, Repr

/-- The decoder on a number: a word has exactly 10 bits (R61). -/
def decodeNat (w : Nat) : Except DecodeError Instr :=
  if w < 1024 then .ok (decode (BitVec.ofNat 10 w)) else .error .tooWide

/-! ### Programs (R60, R73) -/

/-- The word whose bits are listed from bit 9 down to bit 0. -/
def wordOfBits (bits : List Bool) : TxWord := BitVec.ofNat 10 (bits.foldl (fun n b => 2 * n + b.toNat) 0)

/-- The bits of a word, from bit 9 down to bit 0, as R61 draws them.
DESIGN CHOICE, safe (log 7): R73 splits a program every 10 bits and does not say in which order a word's bits stand. -/
def bitsOfWord (w : TxWord) : List Bool :=
  [w.getLsbD 9, w.getLsbD 8, w.getLsbD 7, w.getLsbD 6, w.getLsbD 5, w.getLsbD 4, w.getLsbD 3, w.getLsbD 2, w.getLsbD 1,
    w.getLsbD 0]

/-- A decoder splits a program into words every 10 bits (R73). -/
def splitWords : List Bool → Except DecodeError (List TxWord)
  | [] => .ok []
  | b9 :: b8 :: b7 :: b6 :: b5 :: b4 :: b3 :: b2 :: b1 :: b0 :: rest =>
    match splitWords rest with
    | .ok ws => .ok (wordOfBits [b9, b8, b7, b6, b5, b4, b3, b2, b1, b0] :: ws)
    | .error e => .error e
  | few => .error (.leftover few.length)

/-- The transactions of a program given as bits, in the order of presentation (R60). -/
def decodeProgram (bits : List Bool) : Except DecodeError (List Instr) :=
  match splitWords bits with
  | .ok ws => .ok (ws.map decode)
  | .error e => .error e

/-! ### Encoding -/

/-- The word of a transaction; an assembler writes 0 in the ignored data bits (R63, R70, R71). -/
def encode : Instr → TxWord
  | .sample v => TxWord.ofFields 0b00#2 v
  | .start => TxWord.ofFields 0b01#2 0#8
  | .stop => TxWord.ofFields 0b10#2 0#8
  | .rsvd => TxWord.ofFields 0b11#2 0#8

/-- The bits of a program (R60, R73). -/
def encodeProgram (is : List Instr) : List Bool := is.flatMap fun i => bitsOfWord (encode i)

/-! ### The host's reading of the opcode table -/

/-- The instruction of a word whose lowest `nbits` bits are those of `w` and whose other bits are 0; none if that is no 10-bit word. -/
def decodeTableWord (nbits w : Nat) : Option Instr :=
  match decodeNat (w % 2 ^ nbits) with
  | .ok i => some i
  | .error _ => none

end Sys2Proof
end

