-- ==== Sys2Proof/Machine/Operands.lean ====
section
/-! DEFINITION. The operand forms of the block. There is one: SAMPLE's 8-bit immediate (spec/30_encoding.md R62, R74). No operand names
a register, a memory place or an address (R40, R74, R113). -/

namespace Sys2Proof.Machine

/-- The value of a sample: `zext_8`, an unsigned integer 0 to 255, not scaled, shifted or sign extended (R62, R113). -/
def sampleValue (v : Sample) : Nat := v.toNat

end Sys2Proof.Machine
end

