-- ==== Sys2Proof/Machine/Rom.lean ====
section
/-! DEFINITION. The block's fixed read-only data (spec/10_state.md R30): the contract constants (spec/00_scope.md R6), the frequency and
bin tables (spec/42_tone_analyzer.md R140, R143), and how a sample rate gives the capacities at elaboration (R7, R8, R9). -/

namespace Sys2Proof.Machine

/-- pauseWindowSeconds = 0.007, in thousandths of a second (R6). -/
def pauseWindowMillis : Nat := 7

/-- symbolWindowSeconds = 0.03, in thousandths of a second (R6). -/
def symbolWindowMillis : Nat := 30

/-- PauseMaxDeviationThreshold = 1.0, in sample units (R6, R123). -/
def pauseMaxDeviation : Nat := 1

/-- OffHookThreshold (R6). -/
def offHookThreshold : Nat := 180

/-- OnHookThreshold (R6). -/
def onHookThreshold : Nat := 20

/-- The target frequencies in Hz, lane 0 first (R6, R140). -/
def targetFrequencies : Vector Nat 8 := #v[697, 770, 852, 941, 1209, 1336, 1477, 1633]

/-- The bin numbers k_j, lane 0 first: the table of R143, the same for every sample rate. -/
def binNumbers : Vector Nat 8 := #v[21, 23, 26, 28, 36, 40, 44, 49]

/-! ### Elaboration (R7 to R11, R222 step 1) -/

/-- The configuration whose capacities are given, or none if it is not legal (R9, R10, R11, I7): then no block exists. -/
def elaborateCapacities (pcap scap : Nat) (outDepth : Option Nat) (ampTol : Tolerance) : Option Config :=
  let c : Config := { pcap := pcap, scap := scap, outDepth := outDepth, ampTol := ampTol }
  if c.legal then some c else none

/-- The capacity of a window of `millis` thousandths of a second: round(SAMPLE_RATE × seconds), where round(x) = floor(x + 1/2), so that
ties go up (R8). -/
noncomputable def capacityOf (rate : ℝ) (millis : Nat) : Nat := ⌊rate * (millis / 1000) + 1 / 2⌋₊

/-- Elaboration: what a SAMPLE_RATE, any real number, gives. A rate that is not positive (R7) gives the capacity 0, and so no block. -/
noncomputable def elaborate (rate : ℝ) (outDepth : Option Nat) (ampTol : Tolerance) : Option Config :=
  elaborateCapacities (capacityOf rate pauseWindowMillis) (capacityOf rate symbolWindowMillis) outDepth ampTol

/-! For a rational SAMPLE_RATE the same, by a computation. -/

/-- `round(num / den)`, where round(x) = floor(x + 1/2), so that ties go up (R8). -/
def roundHalfUp (num den : Nat) : Nat := (2 * num + den) / (2 * den)

/-- The capacity of a window of `millis` thousandths of a second at a rational SAMPLE_RATE (R8). -/
def ratioCapacity (rate : Ratio) (millis : Nat) : Nat := roundHalfUp (rate.num * millis) (rate.den * 1000)

/-- Elaboration at a rational SAMPLE_RATE. -/
def elaborateRatio (rate : Ratio) (outDepth : Option Nat) (ampTol : Tolerance) : Option Config :=
  elaborateCapacities (ratioCapacity rate pauseWindowMillis) (ratioCapacity rate symbolWindowMillis) outDepth ampTol

end Sys2Proof.Machine
end

