-- ==== Sys2Proof/Machine/Ops.lean ====
section
/-! DEFINITION. The named operations over the state: the window movements (spec/40_window_manager.md R102 to R108, R113), the event FIFO
(spec/10_state.md R26), the sample port (R101) and reset (spec/70_reset_and_hazards.md R220).

There is no operation for taking an exception and none for returning from one: the block has no trap entry, no trap return, no saved
state and no vector (spec/60_exceptions.md R200, R205). -/

namespace Sys2Proof.Machine

/-! ### Windows -/

/-- The migration loop of R105 on the pair (P, S): while 4·|P| > 3·PCAP and |S| < SCAP, one sample moves from the front of P to the
back of S. -/
def migrateLoop (pcap scap : Nat) : List Sample → List Sample → List Sample × List Sample
  | [], s => ([], s)
  | x :: p, s =>
    if 4 * (x :: p).length > 3 * pcap ∧ s.length < scap then migrateLoop pcap scap p (s ++ [x]) else (x :: p, s)

/-- The trim loop of R107 on S: while 4·|S| > 3·SCAP, the oldest sample is discarded. -/
def trimLoop (scap : Nat) : List Sample → List Sample
  | [] => []
  | x :: s => if 4 * (x :: s).length > 3 * scap then trimLoop scap s else x :: s

/-- `P <- P ++ [v]` (R102, R108). -/
def State.appendSample (v : Sample) (st : State) : State := { st with p := st.p ++ [v] }

/-- `P <- []; S <- []` (R104, R161, R163). -/
def State.clearWindows (st : State) : State := { st with p := [], s := [] }

/-- Migration from P to S (R105). -/
def State.migrate (st : State) : State :=
  { st with
    p := (migrateLoop st.cfg.pcap st.cfg.scap st.p st.s).1
    s := (migrateLoop st.cfg.pcap st.cfg.scap st.p st.s).2 }

/-- The trim of S (R107). -/
def State.trim (st : State) : State := { st with s := trimLoop st.cfg.scap st.s }

/-! ### The event FIFO -/

/-- `Emit(e)`: the event enters OUT at the tail (R26). -/
def State.emit (e : Event) (st : State) : State := { st with out := st.out ++ [e] }

/-- `OUT <- []` (R163). -/
def State.clearOut (st : State) : State := { st with out := [] }

/-- A transfer at the event port: the head of OUT leaves and the consumer has it; with OUT = [] there is no transfer (R26, R75). -/
def State.takeHead (st : State) : State :=
  match st.out with
  | [] => st
  | e :: rest => { st with out := rest, taken := st.taken ++ [e] }

/-- OUT has room for two more events: OUT_DEPTH − |OUT| ≥ 2, always true when OUT_DEPTH = ∞ (R101). -/
def State.hasRoom (st : State) : Bool :=
  match st.cfg.outDepth with
  | none => true
  | some d => st.out.length + 2 ≤ d

/-! ### The sample port -/

/-- `s_ready`: a SAMPLE is acceptable exactly when RUN = Running and OUT has room for two more events (R75, R101). -/
def State.sReady (st : State) : Bool := decide (st.run = .running) && st.hasRoom

/-- A sample is presented: it waits behind those presented before it (R46, R101, R208). -/
def State.present (v : Sample) (st : State) : State := { st with samplePort := st.samplePort ++ [v] }

/-- The oldest waiting sample leaves the port (R46). -/
def State.dropSample (st : State) : State := { st with samplePort := st.samplePort.tail }

/-! ### Reset -/

/-- `rst` (R220): every piece of the block's state takes the value of R32. The configuration is fixed at elaboration (R28), the waiting
samples are not touched (R220, I14), and the host's moves and what the consumer has taken are not the block's. -/
def State.applyReset (st : State) : State :=
  { State.resetWith st.cfg with samplePort := st.samplePort, host := st.host, taken := st.taken }

end Sys2Proof.Machine
end

