-- ==== Sys2Proof/Machine/Flags.lean ====
section
/-! DEFINITION. The flags HOOK, ERR and RUN: what computes and sets them. HOOK and the silence outcome come from the classification of
a full P (spec/41_pause_hook_detector.md R120 to R131), decided exactly in integers (R122, R125, R126). -/

namespace Sys2Proof.Machine

/-- Σ, the sum of a window (R120). -/
def windowSum (w : List Sample) : Nat := (w.map sampleValue).sum

/-- Q, the sum of the squares of a window (R120). -/
def windowSumSq (w : List Sample) : Nat := (w.map fun x => sampleValue x ^ 2).sum

/-- The silence test n·Q − Σ² ≤ n², exact in integers, with the threshold 1.0 of R123 (R122). -/
def silent (w : List Sample) : Bool :=
  ((w.length * windowSumSq w : Nat) : Int) - ((windowSum w ^ 2 : Nat) : Int) ≤ ((pauseMaxDeviation ^ 2 * w.length ^ 2 : Nat) : Int)

/-- The mean of the window is above 180, tested as Σ > 180·n (R125). -/
def meanAboveOffHook (w : List Sample) : Bool := windowSum w > offHookThreshold * w.length

/-- The mean of the window is below 20, tested as Σ < 20·n (R126). -/
def meanBelowOnHook (w : List Sample) : Bool := windowSum w < onHookThreshold * w.length

/-- `HOOK <- h`. -/
def State.setHook (h : HookState) (st : State) : State := { st with hook := h }

/-- `RUN <- r` (R21). -/
def State.setRun (r : RunState) (st : State) : State := { st with run := r }

/-- `ERR <- 1`; only reset clears it (R25). -/
def State.setErr (st : State) : State := { st with err := true }

/-- The hook hysteresis on the window P: at most one transition, with its event (R125, R126, R127). -/
def State.hookTest (st : State) : State :=
  if st.hook = .onHook ∧ meanAboveOffHook st.p then (st.setHook .offHook).emit .offHook
  else if st.hook = .offHook ∧ meanBelowOnHook st.p then (st.setHook .onHook).emit .onHook
  else st

/-- Classify (R131): the hook test on the full P, then the silence outcome of the same P (R128, R129). -/
def State.classify (st : State) : Bool × State := (silent st.p, st.hookTest)

end Sys2Proof.Machine
end

