-- ==== Sys2Proof/Machine/Control.lean ====
section
/-! DEFINITION. The control transactions START, STOP and RSVD (spec/43_control.md R160 to R169). None is ever held (R160), and none
writes HOOK or the configuration (R166, R167). -/

namespace Sys2Proof.Machine

/-- START (R161): from Stopped, RUN <- Running and both windows are cleared; while Running, nothing. -/
def execStart (st : State) : Host.Outcome State Fault Refusal :=
  match st.run with
  | .stopped => .next (st.setRun .running).clearWindows
  | .running => .next st

/-- STOP (R163): from Running, RUN <- Stopped, both windows are cleared and OUT is emptied; while Stopped, nothing. -/
def execStop (st : State) : Host.Outcome State Fault Refusal :=
  match st.run with
  | .running => .next (st.setRun .stopped).clearWindows.clearOut
  | .stopped => .next st

/-- RSVD (R165): ERR <- 1, and nothing else changes, in either RUN state. -/
def execRsvd (st : State) : Host.Outcome State Fault Refusal := .next st.setErr

end Sys2Proof.Machine
end

