-- ==== Sys2Proof/Machine/Binary64.lean ====
section
/-! DEFINITION. The binary64 format of an amplitude lane (spec/30_encoding.md R69). -/

namespace Sys2Proof

/-- Bit 63, the sign (R69). -/
def F64.signBit (a : F64) : BitVec 1 := a.extractLsb' 63 1

/-- Bits 62:52, the biased exponent (R69). -/
def F64.exponentField (a : F64) : BitVec 11 := a.extractLsb' 52 11

/-- Bits 51:0, the fraction (R69). -/
def F64.fraction (a : F64) : BitVec 52 := a.extractLsb' 0 52

/-- The value is neither an infinity nor a NaN: the exponent field is not all ones. PRESUMED, unsafe (log 6): IEEE 754. -/
def F64.isFinite (a : F64) : Bool := a.exponentField != 0x7FF#11

/-- The absolute value of a finite binary64: subnormal when the exponent field is 0, else with an implicit leading one.
PRESUMED, unsafe (log 6): IEEE 754; R69 gives the fields and not the number they stand for. -/
def F64.magnitude (a : F64) : ℚ :=
  if a.exponentField = 0#11 then (a.fraction.toNat : ℚ) * 2 ^ (-1074 : ℤ)
  else ((2 ^ 52 + a.fraction.toNat : ℕ) : ℚ) * 2 ^ ((a.exponentField.toNat : ℤ) - 1075)

/-- Not negative and not −0.0, not infinite and not NaN: what R69 says of every amplitude lane. -/
def F64.isAmplitude (a : F64) : Bool := a.isFinite && (a.signBit == 0#1)

end Sys2Proof
end

