-- ==== Sys2Proof/Machine/AmplitudeReference.lean ====
section
/-! DEFINITION. The exact amplitude of a lane (spec/42_tone_analyzer.md R144, R145) and one value that R146 allows for it, computed
and proved to be within 2^-44 of it. The value is used only to show that the constraint of R146 can be met (it is the inhabitant that
`Config.amplitude` asks for, wherever AMP_TOL is a rational of at least 2^-44); the block's lane is the free value, not this one.
Everything here is exact integer or rational arithmetic; the reals stand in propositions only. -/

namespace Sys2Proof.Machine

open Finset

/-- `A` is A_j for bin number `k` and the window `w` of N samples, oldest first (R142, R144, R145): with t_i = i/N and ω = 2π·k,
C = (1/N)·Σ cos(ω·t_i)·s_i, S = (1/N)·Σ sin(ω·t_i)·s_i and A = sqrt(C² + S²). The samples are raw: no window function, no offset (R147). -/
def IsExactAmplitude (k : Nat) (w : List Sample) (A : ℝ) : Prop :=
  A = Real.sqrt
    (((∑ i : Fin w.length, Real.cos (2 * Real.pi * k * ((i : ℕ) / w.length)) * sampleValue w[i]) / w.length) ^ 2 +
      ((∑ i : Fin w.length, Real.sin (2 * Real.pi * k * ((i : ℕ) / w.length)) * sampleValue w[i]) / w.length) ^ 2)

/-! ### A reference value -/

/-- The number of terms of the exponential series the reference takes. -/
def expTerms : Nat := 60

/-- The even terms of the series: cos x. -/
def cosQ (x : ℚ) : ℚ := ∑ m ∈ range expTerms, (if m % 4 = 0 then 1 else if m % 4 = 2 then -1 else 0) * x ^ m / m.factorial

/-- The odd terms of the series: sin x. -/
def sinQ (x : ℚ) : ℚ := ∑ m ∈ range expTerms, (if m % 4 = 1 then 1 else if m % 4 = 3 then -1 else 0) * x ^ m / m.factorial

/-- π to 20 decimal places. -/
def piQ : ℚ := 3.14159265358979323846

/-- 2π·(k·i mod n)/n, the angle of sample `i` brought below one turn. -/
def angleQ (k n i : Nat) : ℚ := 2 * piQ * ((k * i % n : ℕ) / n)

/-- C of R144, in rationals. -/
def avgCosQ (k : Nat) (w : List Sample) : ℚ := (∑ i : Fin w.length, cosQ (angleQ k w.length i) * sampleValue w[i]) / w.length

/-- S of R144, in rationals. -/
def avgSinQ (k : Nat) (w : List Sample) : ℚ := (∑ i : Fin w.length, sinQ (angleQ k w.length i) * sampleValue w[i]) / w.length

/-- The amplitude in units of 2^-45, rounded down. -/
def fixedAmplitude (k : Nat) (w : List Sample) : Nat := Nat.sqrt ⌊(avgCosQ k w ^ 2 + avgSinQ k w ^ 2) * 4 ^ 45⌋₊

/-- The binary64 of `m · 2^-45`, exact for `m < 2^53` (R69's fields: sign, biased exponent, fraction). -/
def fixedLane (m : Nat) : F64 :=
  if m = 0 then 0#64
  else (0#1 ++ BitVec.ofNat 11 (m.log2 + 978)) ++ BitVec.ofNat 52 (m * 2 ^ (52 - m.log2) - 2 ^ 52)

/-! ### It is a value R146 allows -/

theorem normal_bounds {m : Nat} (h0 : m ≠ 0) (h : m < 2 ^ 53) :
    m.log2 ≤ 52 ∧ 2 ^ 52 ≤ m * 2 ^ (52 - m.log2) ∧ m * 2 ^ (52 - m.log2) < 2 * 2 ^ 52 := by
  have hL : m.log2 ≤ 52 := Nat.le_of_lt_succ ((Nat.log2_lt h0).2 h)
  have hp : (2:ℕ) ^ m.log2 * 2 ^ (52 - m.log2) = 2 ^ 52 := by rw [← pow_add, Nat.add_sub_cancel' hL]
  refine ⟨hL, ?_, ?_⟩
  · rw [← hp]; exact Nat.mul_le_mul_right _ (Nat.log2_self_le h0)
  · rw [← hp, ← mul_assoc]
    refine Nat.mul_lt_mul_of_pos_right ?_ (by positivity)
    rw [mul_comm, ← pow_succ]; exact Nat.lt_log2_self

theorem fields_append (s : BitVec 1) (e : BitVec 11) (f : BitVec 52) :
    F64.signBit ((s ++ e) ++ f) = s ∧ F64.exponentField ((s ++ e) ++ f) = e ∧ F64.fraction ((s ++ e) ++ f) = f := by
  refine ⟨?_, ?_, ?_⟩ <;> ext i hi <;>
    simp only [F64.signBit, F64.exponentField, F64.fraction, BitVec.getElem_extractLsb', BitVec.getLsbD_append]
  · have : i = 0 := by omega
    subst this; simp
  · have h1 : ¬ 52 + i < 52 := by omega
    have h2 : 52 + i - 52 = i := by omega
    simp [h1, h2, hi, BitVec.getLsbD_eq_getElem]
  · simp [hi, BitVec.getLsbD_eq_getElem]

theorem fixedLane_fields {m : Nat} (h0 : m ≠ 0) (h : m < 2 ^ 53) :
    F64.signBit (fixedLane m) = 0#1 ∧ (F64.exponentField (fixedLane m)).toNat = m.log2 + 978 ∧
      2 ^ 52 + (F64.fraction (fixedLane m)).toNat = m * 2 ^ (52 - m.log2) := by
  obtain ⟨hL, ha, hb⟩ := normal_bounds h0 h
  rw [fixedLane, if_neg h0]
  obtain ⟨h1, h2, h3⟩ := fields_append 0#1 (BitVec.ofNat 11 (m.log2 + 978)) (BitVec.ofNat 52 (m * 2 ^ (52 - m.log2) - 2 ^ 52))
  refine ⟨h1, ?_, ?_⟩
  · rw [h2, BitVec.toNat_ofNat, Nat.mod_eq_of_lt (by omega)]
  · rw [h3, BitVec.toNat_ofNat]
    generalize 2 ^ 52 = c at *
    rw [Nat.mod_eq_of_lt (by omega)]; omega
theorem fixedLane_sign (m : Nat) (h : m < 2 ^ 53) : F64.signBit (fixedLane m) = 0#1 := by
  by_cases h0 : m = 0
  · subst h0; rfl
  · exact (fixedLane_fields h0 h).1

theorem fixedLane_finite (m : Nat) (h : m < 2 ^ 53) : F64.isFinite (fixedLane m) = true := by
  by_cases h0 : m = 0
  · subst h0; rfl
  · have h1 := (fixedLane_fields h0 h).2.1
    have hL := (normal_bounds h0 h).1
    rw [F64.isFinite, bne_iff_ne]
    intro e
    rw [e] at h1
    have : (0x7FF#11 : BitVec 11).toNat = 2047 := rfl
    omega

theorem fixedLane_magnitude (m : Nat) (h : m < 2 ^ 53) : F64.magnitude (fixedLane m) = m / 2 ^ 45 := by
  by_cases h0 : m = 0
  · subst h0; simp [F64.magnitude, F64.exponentField, F64.fraction, fixedLane]
  · obtain ⟨-, h1, h2⟩ := fixedLane_fields h0 h
    have hL := (normal_bounds h0 h).1
    have hne : F64.exponentField (fixedLane m) ≠ 0#11 := by
      intro e
      rw [e] at h1
      simp at h1
    rw [F64.magnitude, if_neg hne, h1, h2, Nat.cast_mul, Nat.cast_pow, Nat.cast_ofNat, mul_assoc, div_eq_mul_inv]
    congr 1
    rw [← zpow_natCast (2:ℚ) (52 - m.log2), ← zpow_add₀ (by norm_num), ← zpow_natCast (2:ℚ) 45, ← zpow_neg]
    have : (((52 - m.log2 : ℕ) : ℤ) + (((m.log2 + 978 : ℕ) : ℤ) - 1075)) = -((45 : ℕ) : ℤ) := by omega
    rw [this]

theorem I_pow (m : ℕ) : Complex.I ^ m = ((if m % 4 = 0 then 1 else if m % 4 = 2 then -1 else 0 : ℚ) : ℂ) + ((if m % 4 = 1 then 1 else if m % 4 = 3 then -1 else 0 : ℚ) : ℂ) * Complex.I := by
  rw [Complex.I_pow_eq_pow_mod]
  have : m % 4 < 4 := Nat.mod_lt _ (by norm_num)
  generalize m % 4 = r at *
  interval_cases r <;> simp [pow_succ]

theorem cosQ_sinQ_exp (x : ℚ) : ((cosQ x : ℚ) : ℂ) + ((sinQ x : ℚ) : ℂ) * Complex.I = ∑ m ∈ range expTerms, ((x : ℂ) * Complex.I) ^ m / m.factorial := by
  simp only [cosQ, sinQ, Rat.cast_sum, sum_mul, ← sum_add_distrib]
  refine sum_congr rfl fun m _ => ?_
  rw [mul_pow, I_pow]
  push_cast
  ring

theorem exp_close {x : ℚ} {θ : ℝ} (hx : |x| ≤ 7) {d : ℝ} (hd : |(x:ℝ) - θ| ≤ d) :
    ‖Complex.exp (θ * Complex.I) - (((cosQ x : ℚ) : ℂ) + ((sinQ x : ℚ) : ℂ) * Complex.I)‖ ≤ d + 1 / 10 ^ 28 := by
  have hn : ‖(x : ℂ) * Complex.I‖ = |(x : ℝ)| := by
    have : (x : ℂ) = ((x : ℝ) : ℂ) := by push_cast; rfl
    rw [norm_mul, Complex.norm_I, mul_one, this, Complex.norm_real, Real.norm_eq_abs]
  have hx' : |(x : ℝ)| ≤ 7 := by exact_mod_cast hx
  have h1 : ‖Complex.exp ((x : ℂ) * Complex.I) - ∑ m ∈ range expTerms, ((x : ℂ) * Complex.I) ^ m / m.factorial‖ ≤
      ‖(x : ℂ) * Complex.I‖ ^ expTerms / (expTerms.factorial : ℝ) * 2 := by
    apply Complex.exp_bound'
    rw [hn]
    norm_num [expTerms]
    rw [div_le_div_iff₀] <;> linarith
  have h2 : ‖Complex.exp (θ * Complex.I) - Complex.exp ((x : ℂ) * Complex.I)‖ ≤ |(x : ℝ) - θ| := by
    have e : Complex.exp (θ * Complex.I) - Complex.exp ((x : ℂ) * Complex.I) =
        Complex.exp ((x : ℂ) * Complex.I) * (Complex.exp (Complex.I * ((θ - x : ℝ) : ℂ)) - 1) := by
      rw [mul_sub, mul_one, ← Complex.exp_add]; congr 2; push_cast; ring
    have n1 : ‖Complex.exp ((x : ℂ) * Complex.I)‖ = 1 := by
      have := Complex.norm_exp_ofReal_mul_I (x : ℝ)
      simpa using this
    rw [e, norm_mul, n1, one_mul]
    calc _ ≤ ‖θ - x‖ := Real.norm_exp_I_mul_ofReal_sub_one_le
      _ = |(x:ℝ) - θ| := by rw [Real.norm_eq_abs, abs_sub_comm]
  rw [cosQ_sinQ_exp]
  calc _ = ‖(Complex.exp (θ * Complex.I) - Complex.exp ((x : ℂ) * Complex.I)) + (Complex.exp ((x : ℂ) * Complex.I) - ∑ m ∈ range expTerms, ((x : ℂ) * Complex.I) ^ m / m.factorial)‖ := by congr 1; ring
    _ ≤ _ := norm_add_le _ _
    _ ≤ d + 1/10^28 := by
      refine add_le_add (h2.trans hd) (h1.trans ?_)
      rw [hn]
      calc |(x:ℝ)|^expTerms / (expTerms.factorial:ℝ) * 2 ≤ 7 ^ expTerms / (expTerms.factorial:ℝ) * 2 := by gcongr
        _ ≤ _ := by norm_num [expTerms, Nat.factorial]
theorem exp_angle (k : ℕ) {n i : ℕ} (hn : 0 < n) :
    Complex.exp (((2 * Real.pi * k * ((i:ℕ) / n) : ℝ) : ℂ) * Complex.I) = Complex.exp (((2 * Real.pi * ((k * i % n : ℕ) / n) : ℝ) : ℂ) * Complex.I) := by
  have h : (k * i : ℕ) = n * (k * i / n) + k * i % n := (Nat.div_add_mod _ _).symm
  have hn' : (n:ℝ) ≠ 0 := by positivity
  have e : (2 * Real.pi * k * ((i:ℕ) / n) : ℝ) = 2 * Real.pi * ((k * i % n : ℕ) / n) + (k * i / n : ℕ) * (2 * Real.pi) := by
    have h' : (k : ℝ) * i = n * (k * i / n : ℕ) + (k * i % n : ℕ) := by exact_mod_cast h
    have : (2 * Real.pi * k * ((i:ℕ) / n) : ℝ) = 2 * Real.pi * ((k * i : ℝ) / n) := by ring
    rw [this, h']; field_simp; ring
  rw [e]
  rw [Complex.ofReal_add, add_mul, Complex.exp_add]
  have : (((( k * i / n : ℕ) : ℝ) * (2 * Real.pi) : ℝ) : ℂ) * Complex.I = ((k * i / n : ℕ) : ℂ) * (2 * Real.pi * Complex.I) := by push_cast; ring
  rw [this, Complex.exp_nat_mul_two_pi_mul_I, mul_one]

theorem angle_close (k : ℕ) {n i : ℕ} (hn : 0 < n) :
    |angleQ k n i| ≤ 7 ∧ |((angleQ k n i : ℚ) : ℝ) - 2 * Real.pi * ((k * i % n : ℕ) / n)| ≤ 1 / 10 ^ 19 := by
  have hr : ((k * i % n : ℕ) : ℝ) / n ≤ 1 := by
    rw [div_le_one (by positivity)]; exact_mod_cast (Nat.mod_lt _ hn).le
  have hr0 : 0 ≤ ((k * i % n : ℕ) : ℝ) / n := by positivity
  have hp1 := Real.pi_gt_d20
  have hp2 := Real.pi_lt_d20
  have e : ((angleQ k n i : ℚ) : ℝ) = 2 * 3.14159265358979323846 * (((k * i % n : ℕ) : ℝ) / n) := by
    simp only [angleQ, piQ]; push_cast; norm_num
  constructor
  · have : |((angleQ k n i : ℚ) : ℝ)| ≤ 7 := by
      rw [e, abs_of_nonneg (by positivity)]
      nlinarith
    exact_mod_cast this
  · rw [e, abs_le]
    constructor <;> nlinarith

theorem exp_ref_close (k : ℕ) {n i : ℕ} (hn : 0 < n) :
    ‖Complex.exp (((2 * Real.pi * k * ((i:ℕ) / n) : ℝ) : ℂ) * Complex.I) - (((cosQ (angleQ k n i) : ℚ) : ℂ) + ((sinQ (angleQ k n i) : ℚ) : ℂ) * Complex.I)‖ ≤ 1 / 10 ^ 18 := by
  rw [exp_angle k hn]
  obtain ⟨h1, h2⟩ := angle_close k (i := i) hn
  exact (exp_close h1 h2).trans (by norm_num)

theorem avg_close (k : ℕ) (w : List Sample) :
    ‖(((∑ i : Fin w.length, Complex.exp (((2 * Real.pi * k * ((i:ℕ) / w.length) : ℝ) : ℂ) * Complex.I) * (sampleValue w[i] : ℂ)) / w.length)
      - (((avgCosQ k w : ℚ) : ℂ) + ((avgSinQ k w : ℚ) : ℂ) * Complex.I))‖ ≤ 255 / 10 ^ 18 := by
  rcases Nat.eq_zero_or_pos w.length with hn | hn
  · have : IsEmpty (Fin w.length) := by rw [hn]; infer_instance
    simp [avgCosQ, avgSinQ]
    positivity
  have hn' : (0:ℝ) < w.length := by exact_mod_cast hn
  have e : ((((avgCosQ k w : ℚ) : ℂ) + ((avgSinQ k w : ℚ) : ℂ) * Complex.I)) =
      (∑ i : Fin w.length, (((cosQ (angleQ k w.length i) : ℚ) : ℂ) + ((sinQ (angleQ k w.length i) : ℚ) : ℂ) * Complex.I) * (sampleValue w[i] : ℂ)) / w.length := by
    simp only [avgCosQ, avgSinQ]
    push_cast
    rw [div_mul_eq_mul_div, ← add_div, sum_mul, ← sum_add_distrib]
    congr 1
    exact sum_congr rfl fun i _ => by ring
  rw [e, ← sub_div, ← sum_sub_distrib, norm_div, Complex.norm_natCast, div_le_iff₀ hn']
  calc _ ≤ ∑ i : Fin w.length, (255 / 10 ^ 18 : ℝ) := by
        refine norm_sum_le_of_le _ fun i _ => ?_
        rw [← sub_mul, norm_mul, Complex.norm_natCast]
        have hs : (sampleValue w[i] : ℝ) ≤ 255 := by
          have : w[i].toNat < 256 := w[i].isLt
          have : sampleValue w[i] ≤ 255 := by unfold sampleValue; omega
          exact_mod_cast this
        calc _ ≤ 1 / 10 ^ 18 * (255:ℝ) := mul_le_mul (exp_ref_close k hn) hs (by positivity) (by positivity)
          _ = _ := by ring
    _ = _ := by simp; ring

theorem exact_norm {k : ℕ} {w : List Sample} {A : ℝ} (h : IsExactAmplitude k w A) :
    A = ‖((∑ i : Fin w.length, Complex.exp (((2 * Real.pi * k * ((i:ℕ) / w.length) : ℝ) : ℂ) * Complex.I) * (sampleValue w[i] : ℂ)) / w.length)‖ := by
  rw [h]
  have e : ((∑ i : Fin w.length, Complex.exp (((2 * Real.pi * k * ((i:ℕ) / w.length) : ℝ) : ℂ) * Complex.I) * (sampleValue w[i] : ℂ)) / w.length) =
      (((∑ i : Fin w.length, Real.cos (2 * Real.pi * k * ((i : ℕ) / w.length)) * sampleValue w[i]) / w.length : ℝ) : ℂ) +
      (((∑ i : Fin w.length, Real.sin (2 * Real.pi * k * ((i : ℕ) / w.length)) * sampleValue w[i]) / w.length : ℝ) : ℂ) * Complex.I := by
    rw [Complex.ofReal_div, Complex.ofReal_div, Complex.ofReal_natCast, div_mul_eq_mul_div, ← add_div, Complex.ofReal_sum, Complex.ofReal_sum, sum_mul, ← sum_add_distrib]
    congr 1
    refine sum_congr rfl fun i _ => ?_
    rw [Complex.exp_mul_I, ← Complex.ofReal_cos, ← Complex.ofReal_sin, Complex.ofReal_mul (Real.cos _), Complex.ofReal_mul (Real.sin _),
      Complex.ofReal_natCast]
    ring
  rw [e, Complex.norm_add_mul_I]

theorem exact_le {k : ℕ} {w : List Sample} {A : ℝ} (h : IsExactAmplitude k w A) : A ≤ 255 := by
  rw [exact_norm h]
  rcases Nat.eq_zero_or_pos w.length with hn | hn
  · have : IsEmpty (Fin w.length) := by rw [hn]; infer_instance
    simp
  have hn' : (0:ℝ) < w.length := by exact_mod_cast hn
  rw [norm_div, Complex.norm_natCast, div_le_iff₀ hn']
  calc _ ≤ ∑ i : Fin w.length, (255 : ℝ) := by
        refine norm_sum_le_of_le _ fun i _ => ?_
        rw [norm_mul, Complex.norm_exp_ofReal_mul_I, one_mul, Complex.norm_natCast]
        have : w[i].toNat < 256 := w[i].isLt
        have : sampleValue w[i] ≤ 255 := by unfold sampleValue; omega
        exact_mod_cast this
    _ = _ := by simp; ring

theorem fixedAmplitude_close {k : ℕ} {w : List Sample} {A : ℝ} (h : IsExactAmplitude k w A) :
    fixedAmplitude k w < 2 ^ 53 ∧ |(fixedAmplitude k w : ℝ) / 2 ^ 45 - A| ≤ 1 / 2 ^ 44 := by
  have hA := exact_le h
  have hAz := exact_norm h
  have hc := avg_close k w
  set z := ((∑ i : Fin w.length, Complex.exp (((2 * Real.pi * k * ((i:ℕ) / w.length) : ℝ) : ℂ) * Complex.I) * (sampleValue w[i] : ℂ)) / w.length) with hz
  set q : ℂ := (((avgCosQ k w : ℚ) : ℂ) + ((avgSinQ k w : ℚ) : ℂ) * Complex.I) with hq
  have hAB : |‖q‖ - A| ≤ 255 / 10 ^ 18 := by
    rw [hAz, abs_sub_comm]; exact (abs_norm_sub_norm_le z q).trans hc
  have hB : ‖q‖ = Real.sqrt (((avgCosQ k w ^ 2 + avgSinQ k w ^ 2 : ℚ)) : ℝ) := by
    have := Complex.norm_add_mul_I (avgCosQ k w : ℝ) (avgSinQ k w : ℝ)
    rw [hq]; push_cast at this ⊢; exact this
  set T : ℚ := (avgCosQ k w ^ 2 + avgSinQ k w ^ 2) * 4 ^ 45 with hT
  have hT0 : 0 ≤ T := by positivity
  have hBT : ‖q‖ * 2 ^ 45 = Real.sqrt (T : ℝ) := by
    rw [hB, hT]; push_cast
    rw [Real.sqrt_mul (by positivity), show (4:ℝ) ^ 45 = (2 ^ 45) ^ 2 by norm_num, Real.sqrt_sq (by positivity)]
  have hm : fixedAmplitude k w = Nat.sqrt ⌊T⌋₊ := rfl
  set m := fixedAmplitude k w
  have h1 : (m : ℝ) ≤ ‖q‖ * 2 ^ 45 := by
    rw [hBT]
    apply Real.le_sqrt_of_sq_le
    have a : m ^ 2 ≤ ⌊T⌋₊ := by rw [hm, pow_two]; exact Nat.sqrt_le _
    have b : ((⌊T⌋₊ : ℕ) : ℚ) ≤ T := Nat.floor_le hT0
    have c : ((m ^ 2 : ℕ) : ℚ) ≤ T := le_trans (by exact_mod_cast a) b
    exact_mod_cast c
  have h2 : ‖q‖ * 2 ^ 45 ≤ m + 1 := by
    rw [hBT]
    apply Real.sqrt_le_iff.2 ⟨by positivity, ?_⟩
    have a : ⌊T⌋₊ + 1 ≤ (m + 1) ^ 2 := by rw [hm, pow_two]; exact Nat.succ_le_succ_sqrt _
    have b : T < ⌊T⌋₊ + 1 := Nat.lt_floor_add_one T
    have c : T ≤ ((m + 1) ^ 2 : ℕ) := b.le.trans (by exact_mod_cast a)
    exact_mod_cast c
  obtain ⟨l, u⟩ := abs_le.1 hAB
  constructor
  · have hle : (m : ℝ) ≤ (255 + 255 / 10 ^ 18) * 2 ^ 45 := h1.trans (mul_le_mul_of_nonneg_right (by linarith) (by positivity))
    have hlt : (m : ℝ) < 9007199254740992 := hle.trans_lt (by norm_num)
    have : m < 9007199254740992 := by exact_mod_cast hlt
    exact this.trans_le (by norm_num)
  · rw [abs_le]
    norm_num at *
    constructor <;> linarith

end Sys2Proof.Machine
end

