-- ==== Sys2Proof/Machine/ToneAnalyzer.lean ====
section
/-! DEFINITION. The Tone Analyzer (spec/42_tone_analyzer.md R140 to R152). -/

namespace Sys2Proof.Machine

/-- R146: `a` is finite and not NaN, a ≥ 0 and not −0.0, and within AMP_TOL of the exact amplitude of bin number `k` over the window. -/
def MeetsTolerance (tol : Tolerance) (k : Nat) (w : List Sample) (a : F64) : Prop :=
  a.isAmplitude = true ∧ ∀ A : ℝ, IsExactAmplitude k w A → |(a.magnitude : ℝ) - A| ≤ tol.value

/-- What a lane may be: it meets R146. DESIGN CHOICE, safe (log 5): where AMP_TOL is so small that no binary64 value at all meets R146, the
lane is any value that meets its first two conditions. -/
def LaneAllowed (tol : Tolerance) (k : Nat) (w : List Sample) (a : F64) : Prop :=
  MeetsTolerance tol k w a ∨ (a.isAmplitude = true ∧ ∀ b, ¬ MeetsTolerance tol k w b)

/-! ### The constraint can be met

Lean asks for a value of its type before it takes an opaque constant; no proof can see which value was given. -/

/-- AMP_TOL is a rational of at least 2^-44. -/
def isCoarse : Tolerance → Bool
  | .ratio num den => 0 < den && den ≤ num * 2 ^ 44
  | .real _ => false

/-- For such an AMP_TOL the reference value meets R146. -/
theorem fixedLane_meets {tol : Tolerance} (h : isCoarse tol = true) (k : Nat) (w : List Sample) :
    MeetsTolerance tol k w (fixedLane (fixedAmplitude k w)) := by
  have hlt : fixedAmplitude k w < 2 ^ 53 := (fixedAmplitude_close (k := k) (w := w) rfl).1
  refine ⟨by simp [F64.isAmplitude, fixedLane_finite _ hlt, fixedLane_sign _ hlt], fun A hA => ?_⟩
  rw [fixedLane_magnitude _ hlt]
  push_cast
  refine (fixedAmplitude_close hA).2.trans ?_
  cases tol with
  | ratio num den =>
    simp only [isCoarse, Bool.and_eq_true, decide_eq_true_eq] at h
    have h2 : (den : ℝ) ≤ num * 2 ^ 44 := by exact_mod_cast h.2
    rw [Tolerance.value, div_le_div_iff₀ (by positivity) (by exact_mod_cast h.1)]
    linarith
  | real n => cases h

/-- Some value is allowed, for every AMP_TOL. -/
theorem laneAllowed_nonempty (tol : Tolerance) (k : Nat) (w : List Sample) : Nonempty {a : F64 // LaneAllowed tol k w a} := by
  by_cases h : ∃ b, MeetsTolerance tol k w b
  · obtain ⟨b, hb⟩ := h
    exact ⟨b, .inl hb⟩
  · exact ⟨0#64, .inr ⟨by decide, fun b hb => h ⟨b, hb⟩⟩⟩

/-- A value of a type that has one, with no algorithm for it: the search does not end when it is run. Only an AMP_TOL that is not
`isCoarse` asks for it. -/
def someLane (allowed : F64 → Prop) [Nonempty {a : F64 // allowed a}] (u : Unit) : {a : F64 // allowed a} := someLane allowed u
partial_fixpoint

/-- The value given for the type of a lane. -/
def allowedLane (tol : Tolerance) (k : Nat) (w : List Sample) : {a : F64 // LaneAllowed tol k w a} :=
  if h : isCoarse tol = true then ⟨fixedLane (fixedAmplitude k w), .inl (fixedLane_meets h k w)⟩
  else @someLane (LaneAllowed tol k w) (laneAllowed_nonempty tol k w) ()

/-! ### The lanes -/

/-- The value the block outputs for bin number `k` over the window `w`: any value that is allowed, the free value of the build (I1). -/
def laneValue (tol : Tolerance) (k : Nat) (w : List Sample) : F64 :=
  (@Config.amplitude k w (LaneAllowed tol k w) ⟨allowedLane tol k w⟩).val

/-- Analyze(S): the eight lanes, in the order of the frequency table (R140, R152). It reads the window and nothing else (R141). -/
def analyze (tol : Tolerance) (w : List Sample) : Vector F64 8 := binNumbers.map fun k => laneValue tol k w

end Sys2Proof.Machine
end

