-- ==== Sys2Proof/Machine/WindowManager.lean ====
section
/-! DEFINITION. The Window Manager: the SAMPLE transaction (spec/40_window_manager.md R100 to R113). -/

namespace Sys2Proof.Machine

/-- Full P, silence: emit PAUSE, clear both windows (R104). -/
def State.silenceAction (st : State) : State := (st.emit .pause).clearWindows

/-- Full S after a migration: emit the AmplitudeVector of S (R106), then trim S (R107). -/
def State.evaluateAndTrim (st : State) : State := (st.emit (.amps (analyze st.cfg.ampTol st.s))).trim

/-- Full P, tone: migrate (R105); then, tested once, evaluate a full S and trim it (R106, R107). -/
def State.toneAction (st : State) : State :=
  if st.migrate.s.length = st.cfg.scap then st.migrate.evaluateAndTrim else st.migrate

/-- The whole SAMPLE step for an accepted sample (R109). -/
def State.acceptSample (v : Sample) (st : State) : State :=
  if st.p.length < st.cfg.pcap then st.appendSample v
  else if st.classify.1 then st.classify.2.silenceAction.appendSample v
  else st.classify.2.toneAction.appendSample v

/-- The sample port's turn: the oldest waiting sample is accepted if the block is ready for one; otherwise it is held, and nothing
changes (R46, R101). -/
def State.serveSample (st : State) : State :=
  match st.samplePort with
  | [] => st
  | v :: _ => if st.sReady then st.dropSample.acceptSample v else st

/-- SAMPLE v (R100): `v` is presented at the sample port, behind any sample that waits there, and the port has its turn. So with
nothing waiting, `v` itself is accepted, or held. -/
def execSample (v : Sample) (st : State) : Host.Outcome State Fault Refusal := .next (st.present v).serveSample

end Sys2Proof.Machine
end

