-- ==== Sys2Proof/Machine/Dispatch.lean ====
section
/-! DEFINITION. One arm per transaction of the opcode map (spec/30_encoding.md R65). -/

namespace Sys2Proof.Machine

/-- What a transaction presented on its port does. -/
def exec (i : Instr) (s : State) : Host.Outcome State Fault Refusal :=
  match i with
  | .sample v => Sys2Proof.Machine.execSample v s
  | .start => Sys2Proof.Machine.execStart s
  | .stop => Sys2Proof.Machine.execStop s
  | .rsvd => Sys2Proof.Machine.execRsvd s

end Sys2Proof.Machine
end

