-- ==== Sys2Proof/Machine/Moves.lean ====
section
/-! DEFINITION. What each move of the host makes the block do: one atomic step (spec/20_memory.md R44, spec/60_exceptions.md R207,
R208). -/

namespace Sys2Proof.Machine

/-- One move: a word is decoded and executed (R60, R65); a control code is executed as what it means (R63, R64); the consumer takes an
event (R75); `rst` resets (R220); or a waiting sample has its turn (R101). -/
def runMove (m : HostMove) (st : State) : Host.Outcome State Fault Refusal :=
  match m with
  | .word w => exec (decode w) st
  | .control c => exec (decodeControl c) st
  | .take => .next st.takeHead
  | .rst => .next st.applyReset
  | .sampleTurn => .next st.serveSample

end Sys2Proof.Machine
end

