-- ==== Sys2Proof/Machine/Step.lean ====
section
/-! DEFINITION. One step of the machine: one accepted transaction, or a boundary at which nothing is accepted (spec/20_memory.md R44). -/

namespace Sys2Proof.Machine

/-- One step. A state whose configuration is not legal is refused: no block exists for it (R9, I7). -/
def step (st : State) : Host.Outcome State Fault Refusal :=
  if st.cfg.legal then runMove st.nextMove.1 st.nextMove.2 else .refused .illegalConfiguration

/-- The state in which the host's next move presents the word whose lowest `nbits` bits are those of `w` (the rest 0; log 10). -/
def State.withFetchWord (st : State) (nbits w : Nat) : State := st.presentNext (BitVec.ofNat 10 (w % 2 ^ nbits))

end Sys2Proof.Machine
end

