-- ==== Sys2Proof/Machine/Assembler.lean ====
section
/-! DEFINITION. The assembly syntax of programs (spec/30_encoding.md R71, R72), the words of a program, and the moves by which the
runner of spec/95_test_vectors.md Part 3 presents it. It is outside the block: no step calls it. -/

namespace Sys2Proof.Machine

/-- One line of a program (R71, R72). -/
inductive AsmLine where
  | sample (v : Sample)
  | start
  | stop
  | rsvd
  /-- `FILL v, n`: n consecutive `SAMPLE v` lines. -/
  | fill (v : Sample) (n : Nat)
  /-- `.config PCAP=p, SCAP=s, OUT_DEPTH=d`; `none` is `inf`. -/
  | config (pcap scap : Nat) (outDepth : Option Nat)
  /-- `.take`: the consumer takes one event. -/
  | take
deriving DecidableEq, Repr

/-- The words of a line; a directive emits none (R71, R72). -/
def AsmLine.words : AsmLine → List TxWord
  | .sample v => [encode (.sample v)]
  | .start => [encode .start]
  | .stop => [encode .stop]
  | .rsvd => [encode .rsvd]
  | .fill v n => List.replicate n (encode (.sample v))
  | .config _ _ _ => []
  | .take => []

/-- The words of a program, in order (R60). -/
def assemble (prog : List AsmLine) : List TxWord := prog.flatMap AsmLine.words

/-- The moves of a line. After a control word and after a `.take`, a sample that waits has its turn (95_test_vectors.md Part 3). -/
def AsmLine.moves : AsmLine → List HostMove
  | .sample v => [.word (encode (.sample v))]
  | .start => [.word (encode .start), .sampleTurn]
  | .stop => [.word (encode .stop), .sampleTurn]
  | .rsvd => [.word (encode .rsvd), .sampleTurn]
  | .fill v n => List.replicate n (.word (encode (.sample v)))
  | .config _ _ _ => []
  | .take => [.take, .sampleTurn]

/-- The configuration the program names (R72). DESIGN CHOICE, safe (log 12): `c` if it names none, and the last of several;
AMP_TOL, which `.config` does not name, is that of `c`. -/
def programConfig (c : Config) : List AsmLine → Config
  | [] => c
  | .config p s d :: rest => programConfig { c with pcap := p, scap := s, outDepth := d } rest
  | _ :: rest => programConfig c rest

/-- The block elaborated for a program and reset, with the program for the host to present. DESIGN CHOICE, safe (log 12): a
program that names no configuration assumes the reference one. -/
def State.loadProgram (prog : List AsmLine) : State :=
  { State.resetWith (programConfig Config.reference prog) with host := prog.flatMap AsmLine.moves }

/-! ### Text (R71): mnemonics are case-insensitive, `;` starts a comment, numbers are decimal or 0x-hex -/

/-- Why a line of text is no line of a program. -/
inductive AsmError where
  /-- The words of the line are none of the forms of R71 and R72. -/
  | unknownLine
  /-- A number is not decimal and not 0x-hex. -/
  | badNumber
  /-- A sample value is not in 0..255. -/
  | sampleRange
deriving DecidableEq, Repr

/-- The value of a digit in base 16. -/
def digitValue (c : Char) : Option Nat :=
  if '0' ≤ c ∧ c ≤ '9' then some (c.toNat - 48)
  else if 'a' ≤ c ∧ c ≤ 'f' then some (c.toNat - 87)
  else none

/-- The value of a string of digits in a base, none if it is empty or holds something else. -/
def digitsValue (base : Nat) (cs : List Char) : Option Nat :=
  if cs.isEmpty then none
  else cs.foldl (fun acc c => acc.bind fun n => (digitValue c).bind fun d => if d < base then some (base * n + d) else none) (some 0)

/-- A number, decimal or 0x-hex (R71). DESIGN CHOICE, safe (log 13): so are the numbers of `FILL` and `.config`, of which the spec does not
say it. -/
def numberValue : List Char → Option Nat
  | '0' :: 'x' :: cs => digitsValue 16 cs
  | cs => digitsValue 10 cs

/-- A lower-case copy of an ASCII letter. -/
def lowerChar (c : Char) : Char := if 'A' ≤ c ∧ c ≤ 'Z' then Char.ofNat (c.toNat + 32) else c

/-- The tokens of a line: without its comment, in lower case, split at blanks, tabs and commas. DESIGN CHOICE, safe (log 13): R71 and R72
show the forms of a line and do not say what separates its parts. -/
def tokens (line : List Char) : List (List Char) :=
  (((line.takeWhile (· != ';')).map lowerChar).splitOnP fun c => c == ' ' || c == '\t' || c == ',').filter fun t => !t.isEmpty

/-- A sample value, 0..255. -/
def sampleOperand (t : List Char) : Except AsmError Sample :=
  match numberValue t with
  | none => .error .badNumber
  | some n => if n < 256 then .ok (BitVec.ofNat 8 n) else .error .sampleRange

/-- The value after `key=` in a token, none if the token does not begin so. -/
def keyed (key : List Char) (t : List Char) : Option (List Char) :=
  if key.isPrefixOf t then some (t.drop key.length) else none

/-- `OUT_DEPTH`: a number, or `inf` (R72). -/
def depthOperand (t : List Char) : Except AsmError (Option Nat) :=
  if t = ['i', 'n', 'f'] then .ok none
  else
    match numberValue t with
    | none => .error .badNumber
    | some n => .ok (some n)

/-- The line of a program whose tokens are given; none for an empty line. -/
def parseTokens : List (List Char) → Except AsmError (Option AsmLine)
  | [] => .ok none
  | [t] =>
    if t = ['s', 't', 'a', 'r', 't'] then .ok (some .start)
    else if t = ['s', 't', 'o', 'p'] then .ok (some .stop)
    else if t = ['r', 's', 'v', 'd'] then .ok (some .rsvd)
    else if t = ['.', 't', 'a', 'k', 'e'] then .ok (some .take)
    else .error .unknownLine
  | [t, v] => if t = ['s', 'a', 'm', 'p', 'l', 'e'] then (sampleOperand v).map fun x => some (.sample x) else .error .unknownLine
  | [t, v, n] =>
    if t = ['f', 'i', 'l', 'l'] then
      match sampleOperand v, numberValue n with
      | .ok x, some k => .ok (some (.fill x k))
      | .ok _, none => .error .badNumber
      | .error e, _ => .error e
    else .error .unknownLine
  | [t, a, b, c] =>
    if t = ['.', 'c', 'o', 'n', 'f', 'i', 'g'] then
      match keyed ['p', 'c', 'a', 'p', '='] a, keyed ['s', 'c', 'a', 'p', '='] b,
        keyed ['o', 'u', 't', '_', 'd', 'e', 'p', 't', 'h', '='] c with
      | some x, some y, some z =>
        match numberValue x, numberValue y, depthOperand z with
        | some p, some s, .ok d => .ok (some (.config p s d))
        | _, _, .error e => .error e
        | _, _, .ok _ => .error .badNumber
      | _, _, _ => .error .unknownLine
    else .error .unknownLine
  | _ => .error .unknownLine

/-- The line of a program that a line of text stands for; none for a blank or comment line (R71, R72). -/
def parseLine (line : List Char) : Except AsmError (Option AsmLine) := parseTokens (tokens line)

end Sys2Proof.Machine
end

