-- ==== Sys2Proof/Machine/Ports.lean ====
section
/-! DEFINITION. What the block shows at its output ports (spec/30_encoding.md R66 to R68, R75) and in STATUS (spec/10_state.md R27). The
signal `s_ready` is `State.sReady` of Machine/Ops.lean. -/

namespace Sys2Proof.Machine

/-- `c_ready`: 1 at every step boundary (R75, R160). -/
def State.cReady (_st : State) : Bool := true

/-- `e_valid`: 1 exactly when OUT is not empty (R75, R203). -/
def State.eValid (st : State) : Bool := !st.out.isEmpty

/-- `e_type` of an event (R66). -/
def Event.eType : Event → BitVec 2
  | .amps _ => 0b00#2
  | .pause => 0b01#2
  | .offHook => 0b10#2
  | .onHook => 0b11#2

/-- The eight lanes `e_amp0` to `e_amp7` of an event; +0.0 in all lanes of an event that is not AMPS (R67, R68). -/
def Event.eAmp : Event → Vector F64 8
  | .amps lanes => lanes
  | .pause => Vector.replicate 8 0#64
  | .offHook => Vector.replicate 8 0#64
  | .onHook => Vector.replicate 8 0#64

/-- What the event port carries: the type and the lanes of the head of OUT (R75); none while OUT is empty.
DESIGN CHOICE, safe (log 9): the spec does not say what the wires carry while `e_valid = 0`. -/
def State.eventPort (st : State) : Option (BitVec 2 × Vector F64 8) := st.out.head?.map fun e => (e.eType, e.eAmp)

/-- STATUS (R27): RUN in bit 0, HOOK in bit 1 (1 = OffHook), ERR in bit 2, |P| in bits 31:16, |S| in bits 47:32, the rest 0. -/
def State.status (st : State) : StatusWord :=
  0#16 ++ BitVec.ofNat 16 st.s.length ++ BitVec.ofNat 16 st.p.length ++ 0#13 ++ BitVec.ofBool st.err ++
    BitVec.ofBool (decide (st.hook = .offHook)) ++ BitVec.ofBool (decide (st.run = .running))

end Sys2Proof.Machine
end

