-- ==== Sys2Proof/Safety.lean ====
section
/-! DEFINITION. What the statements call a legal state of the block: the invariants that hold between any two steps (spec/10_state.md
R31, spec/30_encoding.md R69), and the vocabulary of runs. -/

namespace Sys2Proof.Machine

/-- An event the block can hold: every lane of an AMPS event is an amplitude, so its bit 63 is 0 (R69). -/
def Event.legal : Event → Bool
  | .amps lanes => lanes.toList.all F64.isAmplitude
  | .pause => true
  | .offHook => true
  | .onHook => true

/-- The invariants between steps: I1, I2 and I3 of R31 in a legal configuration (R9, R10, R11), and the events legal (R69). I4 of R31
speaks of the samples accepted so far, and is stated of each step. -/
structure State.Inv (st : State) : Prop where
  legalConfig : st.cfg.legal = true
  /-- I1. -/
  pBound : st.p.length ≤ st.cfg.pcap
  /-- I1: between steps S is never full (R23). -/
  sBound : st.s.length < st.cfg.scap
  /-- I2. -/
  stopped : st.run = .stopped → st.p = [] ∧ st.s = [] ∧ st.out = []
  /-- I3. -/
  outBound : ∀ d, st.cfg.outDepth = some d → st.out.length ≤ d
  /-- R69. -/
  events : ∀ e ∈ st.out, e.legal = true

/-- The block's own part of the state: the configuration and the tuple of R20. -/
def State.block (st : State) : Config × RunState × List Sample × List Sample × HookState × Bool × List Event :=
  (st.cfg, st.run, st.p, st.s, st.hook, st.err, st.out)

/-- A hook event (R66). -/
def Event.isHook : Event → Bool
  | .offHook => true
  | .onHook => true
  | .amps _ => false
  | .pause => false

/-- An AMPS event (R66). -/
def Event.isAmps : Event → Bool
  | .amps _ => true
  | .pause => false
  | .offHook => false
  | .onHook => false

/-- The transaction a move presents or drives, if it does (R60, R63, R64). -/
def HostMove.instr : HostMove → Option Instr
  | .word w => some (decode w)
  | .control c => some (decodeControl c)
  | .take => none
  | .rst => none
  | .sampleTurn => none

/-- `n` steps of the machine; it stops at the first step that does not answer a next state. -/
def runSteps : Nat → State → Host.Outcome State Fault Refusal
  | 0, st => .next st
  | n + 1, st =>
    match step st with
    | .next u => runSteps n u
    | .fault r => .fault r
    | .refused r => .refused r

/-- The moves of a host that presents the samples `vs`, in order, as words (R60, R62). -/
def sampleMoves (vs : List Sample) : List HostMove := vs.map fun v => .word (encode (.sample v))

/-- The handset state after a classification of the window `w`, and the hook event it emits, as R125, R126 and R127 give them. -/
def hookOutcome (h : HookState) (w : List Sample) : HookState × List Event :=
  match h with
  | .onHook => if windowSum w > 180 * w.length then (.offHook, [.offHook]) else (.onHook, [])
  | .offHook => if windowSum w < 20 * w.length then (.onHook, [.onHook]) else (.offHook, [])

/-- The handset state after classifying silent windows one after another, and the events that emits: for each its hook event, if any, and
then PAUSE (R104, R128). -/
def silenceOutcome (h : HookState) : List (List Sample) → HookState × List Event
  | [] => (h, [])
  | w :: ws =>
    ((silenceOutcome (hookOutcome h w).1 ws).1, (hookOutcome h w).2 ++ .pause :: (silenceOutcome (hookOutcome h w).1 ws).2)

/-- The number of samples that R105 says move from a full P: m = min(PCAP − floor(3·PCAP/4), SCAP − |S|). -/
def migrationCount (st : State) : Nat := min (st.cfg.pcap - 3 * st.cfg.pcap / 4) (st.cfg.scap - st.s.length)

/-- The handset state that the hook events of a list lead to, from `h`; none if one of them is not the transition that can come
next, so that the hook events would not alternate (R127). -/
def hookTrace (h : HookState) : List Event → Option HookState
  | [] => some h
  | .offHook :: rest => if h = .onHook then hookTrace .offHook rest else none
  | .onHook :: rest => if h = .offHook then hookTrace .onHook rest else none
  | .amps _ :: rest => hookTrace h rest
  | .pause :: rest => hookTrace h rest

/-- The Goertzel recurrence s_n = x_n + 2·c·s_(n−1) − s_(n−2) from zero, with c for cos(2πk/N): the pair of its last two values (R152). -/
def goertzelPair {R : Type} [CommRing R] (c : R) (xs : List R) : R × R := xs.foldl (fun q x => (x + 2 * c * q.1 - q.2, q.1)) (0, 0)

end Sys2Proof.Machine
end

