-- ==== Sys2Proof/Certificates/Slice0/Obligations.lean ====
section
/-! DEFINITION. The statements for the provers, in the order of the spec's files. Each docstring names the rules it formalises. -/

open Sys2Proof Sys2Proof.Machine

/-! ### 00_scope.md -/

/-- R7, R8: a SAMPLE_RATE that gives a block is a positive real, and the capacities of the block are round(SAMPLE_RATE × 0.007) and
round(SAMPLE_RATE × 0.03), where round(x) = floor(x + 1/2), in exact reals. For a rational SAMPLE_RATE the computed elaboration gives the
same. -/
def Obligations.CapacitiesAreRounded : Prop :=
  (∀ (rate : ℝ) (depth : Option Nat) (tol : Tolerance) (c : Config), elaborate rate depth tol = some c →
    0 < rate ∧ (c.pcap : ℤ) = ⌊rate * 0.007 + 1 / 2⌋ ∧ (c.scap : ℤ) = ⌊rate * 0.03 + 1 / 2⌋) ∧
  (∀ (rate : Ratio) (depth : Option Nat) (tol : Tolerance),
    elaborateRatio rate depth tol = elaborate ((rate.num : ℝ) / rate.den) depth tol)

/-- R9, R10 and R11: a configuration is legal exactly when 1 ≤ PCAP, SCAP ≤ 65535, OUT_DEPTH is ∞ or at least 2, and AMP_TOL > 0;
elaboration gives a block exactly then. That the step too refuses a state with any other configuration, by name, is the model's choice
(log 8): R202 has an illegal configuration refused before any block exists. -/
def Obligations.IllegalConfigurationRefused : Prop :=
  (∀ c : Config, c.legal = true ↔
    (1 ≤ c.pcap ∧ c.pcap ≤ 65535) ∧ (1 ≤ c.scap ∧ c.scap ≤ 65535) ∧ (∀ d, c.outDepth = some d → 2 ≤ d) ∧
      0 < c.ampTol.value) ∧
  (∀ (rate : ℝ) (depth : Option Nat) (tol : Tolerance),
    elaborate rate depth tol =
      (let c : Config := ⟨capacityOf rate 7, capacityOf rate 30, depth, tol⟩
       if c.legal then some c else none)) ∧
  (∀ st : State, step st = .refused .illegalConfiguration ↔ st.cfg.legal = false)

/-- R12: the source's sampleRate = 9615.38 gives PCAP = 67 and SCAP = 288. -/
def Obligations.ReferenceCapacities : Prop :=
  elaborate 9615.38 none (.ratio 1 1000000) = some Config.reference ∧ Config.reference.pcap = 67 ∧ Config.reference.scap = 288

/-! ### 10_state.md -/

/-- R32: every piece of the block's state after reset, for every configuration, and STATUS. -/
def Obligations.ResetValues : Prop :=
  ∀ c : Config, (State.resetWith c).run = .stopped ∧ (State.resetWith c).p = [] ∧ (State.resetWith c).s = [] ∧
    (State.resetWith c).hook = .onHook ∧ (State.resetWith c).err = false ∧ (State.resetWith c).out = [] ∧
    (State.resetWith c).status = 0#64

/-- R27: the fields of STATUS in every state between two steps, and STATUS at reset. -/
def Obligations.StatusShowsState : Prop :=
  (∀ c : Config, (State.resetWith c).status = 0#64) ∧
  ∀ st : State, st.Inv →
    (st.status.getLsbD 0 = true ↔ st.run = .running) ∧ (st.status.getLsbD 1 = true ↔ st.hook = .offHook) ∧
    (st.status.getLsbD 2 = true ↔ st.err = true) ∧ st.status.extractLsb' 3 13 = 0#13 ∧
    (st.status.extractLsb' 16 16).toNat = st.p.length ∧ (st.status.extractLsb' 32 16).toNat = st.s.length ∧
    st.status.extractLsb' 48 16 = 0#16

/-- R31 (I1, I2, I3), R23 and R69: every step keeps the invariants, whatever the host does. -/
def Obligations.StepKeepsInvariant : Prop := ∀ st t : State, st.Inv → step st = .next t → t.Inv

/-- The invariants hold after reset, in every legal configuration and for every host. That State.reset is the reset state of the
reference configuration is the model's choice (log 1). -/
def Obligations.ResetMeetsInvariant : Prop :=
  (∀ (c : Config) (port : List Sample) (moves : List HostMove), c.legal = true →
    ({ State.resetWith c with samplePort := port, host := moves } : State).Inv) ∧
  State.reset = State.resetWith Config.reference

/-- R21: RUN changes only in a START, a STOP or a reset. -/
def Obligations.RunChangesOnlyByControl : Prop :=
  ∀ st t : State, step st = .next t → t.run ≠ st.run →
    ∃ m, st.host.head? = some m ∧
      ((m.instr = some .start ∧ st.run = .stopped ∧ t.run = .running) ∨ (m.instr = some .stop ∧ st.run = .running ∧ t.run = .stopped) ∨
        (m = .rst ∧ t.run = .stopped))

/-- R24, R167: HOOK changes only in a classification or in a reset. In a classification the step is the sample port's: the host presents a
SAMPLE, or leaves the boundary to a sample that waits; and the block is ready, P is full, and the mean of P crosses the threshold that
applies. So START, STOP, RSVD and the consumer never change HOOK. -/
def Obligations.HookChangesOnlyByClassification : Prop :=
  ∀ st t : State, st.Inv → step st = .next t → t.hook ≠ st.hook →
    (st.host.head? = some .rst ∧ t.hook = .onHook) ∨
      (((∃ w v, st.host.head? = some (.word w) ∧ decode w = .sample v) ∨
          ((st.host = [] ∨ st.host.head? = some .sampleTurn) ∧ st.samplePort ≠ [])) ∧
        st.sReady = true ∧ st.p.length = st.cfg.pcap ∧
        ((st.hook = .onHook ∧ t.hook = .offHook ∧ 180 * st.p.length < windowSum st.p) ∨
          (st.hook = .offHook ∧ t.hook = .onHook ∧ windowSum st.p < 20 * st.p.length)))

/-- R25: only a reserved code sets ERR and only reset clears it. -/
def Obligations.ErrIsSticky : Prop :=
  ∀ (st t : State), step st = .next t → t.err ≠ st.err →
    ∃ m, st.host.head? = some m ∧ ((m.instr = some .rsvd ∧ t.err = true) ∨ (m = .rst ∧ t.err = false))

/-- R25: ERR has no effect on any other behaviour: two states that differ in ERR alone step to states that differ in ERR at most. -/
def Obligations.ErrHasNoEffect : Prop :=
  ∀ (st t : State) (b : Bool), step st = .next t → ∃ b', step { st with err := b } = .next { t with err := b' }

/-- R26, R47: events leave from the head and enter at the tail, none reordered, duplicated or dropped: what has been taken followed by
what is in OUT only grows at its end, but for a STOP in the Running state and a reset, which empty OUT and deliver nothing. -/
def Obligations.EventsAreFifo : Prop :=
  ∀ st t : State, step st = .next t →
    (∃ new, t.taken ++ t.out = st.taken ++ st.out ++ new) ∨
      (t.out = [] ∧ t.taken = st.taken ∧
        ∃ m, st.host.head? = some m ∧ ((m.instr = some .stop ∧ st.run = .running) ∨ m = .rst))

/-! ### 20_memory.md -/

/-- R46, R101: samples are consumed in arrival order. A SAMPLE presented while others wait joins the end of the queue, and the sample
accepted is the oldest one, with the effect it has alone. At a boundary that the host leaves to the sample port (it has no move, or its
move says so; log 3), the step accepts the oldest waiting sample in the same way if the block is ready, and else changes nothing of the
block and the port. -/
def Obligations.SamplesInArrivalOrder : Prop :=
  (∀ (st t : State) (v x : Sample) (rest : List Sample), st.samplePort = x :: rest → st.sReady = true →
    exec (.sample x) { st with samplePort := [] } = .next t →
    exec (.sample v) st = .next { t with samplePort := rest ++ [v] }) ∧
  (∀ st : State, st.cfg.legal = true → (st.host = [] ∨ st.host.head? = some .sampleTurn) →
    (∀ (x : Sample) (rest : List Sample), st.samplePort = x :: rest → st.sReady = true →
      ∃ t, exec (.sample x) { st with samplePort := [], host := st.host.tail } = .next t ∧
        step st = .next { t with samplePort := rest }) ∧
    ((st.samplePort = [] ∨ st.sReady = false) → step st = .next { st with host := st.host.tail }))

/-- R48: one SAMPLE step emits at most two events; of two, the hook event comes first and PAUSE or AMPS second; never PAUSE and AMPS. -/
def Obligations.SampleEmitsAtMostTwo : Prop :=
  ∀ (st : State) (v : Sample), ∃ t new, exec (.sample v) st = .next t ∧ t.out = st.out ++ new ∧ new.length ≤ 2 ∧
    (∀ a b, new = [a, b] → a.isHook = true ∧ b.isHook = false) ∧ ¬ (.pause ∈ new ∧ ∃ lanes, .amps lanes ∈ new)

/-- R49, R212, R221: a stopped block whose windows and OUT are empty (as STOP and reset leave it) delivers no event and consumes no
sample until a START, whatever else the host does and for however long. -/
def Obligations.StoppedBlockWaitsForStart : Prop :=
  ∀ (n : Nat) (st t : State), st.run = .stopped → st.p = [] → st.s = [] → st.out = [] →
    (∀ m ∈ st.host, m.instr ≠ some .start) → runSteps n st = .next t →
    t.run = .stopped ∧ t.p = [] ∧ t.s = [] ∧ t.out = [] ∧ t.taken = st.taken ∧ st.samplePort <+: t.samplePort

/-! ### 30_encoding.md -/

/-- R60: when the host's next move presents a word, the step executes the transaction the word decodes to, and takes the word; and that
transaction is the one its port fields stand for, so the block sees them and not the word. -/
def Obligations.StepRunsDecodedWord : Prop :=
  (∀ (st : State) (w : TxWord) (rest : List HostMove), st.cfg.legal = true → st.host = .word w :: rest →
    step st = exec (decode w) { st with host := rest }) ∧
  (∀ w : TxWord, (portTransfer w).instr = decode w)

/-- R62: op 00 is SAMPLE on the sample port, with the 8 data bits as the sample, zero extended; every value is legal. -/
def Obligations.SampleWordCarriesSample : Prop :=
  ∀ w : TxWord, w.extractLsb' 8 2 = 0b00#2 →
    ∃ v : Sample, decode w = .sample v ∧ portTransfer w = .sample v ∧ v = w.extractLsb' 0 8 ∧ sampleValue v = w.toNat % 256 ∧
      (decode w).wellFormed = true

/-- R63: op 01 is START and op 10 is STOP, on the control port with c_code = word[9:8], whatever the data bits; the encoder writes 0
there. -/
def Obligations.ControlWordIgnoresData : Prop :=
  (∀ w : TxWord, w.extractLsb' 8 2 = 0b01#2 → decode w = .start ∧ portTransfer w = .control 0b01#2) ∧
  (∀ w : TxWord, w.extractLsb' 8 2 = 0b10#2 → decode w = .stop ∧ portTransfer w = .control 0b10#2) ∧
  encode .start = 0x100#10 ∧ encode .stop = 0x200#10

/-- R64, R165: op 11 is the reserved control code 0b11, and 0b00 driven on the control port is reserved too; either sets ERR and changes
nothing else, in any state. -/
def Obligations.ReservedCodesSetErr : Prop :=
  (∀ w : TxWord, w.extractLsb' 8 2 = 0b11#2 → decode w = .rsvd ∧ portTransfer w = .control 0b11#2) ∧
  (∀ w : TxWord, portTransfer w ≠ .control 0b00#2) ∧
  (∀ st : State, exec (decodeControl 0b11#2) st = .next { st with err := true } ∧
    exec (decodeControl 0b00#2) st = .next { st with err := true })

/-- R65: the opcode map is total, and by op alone: the transaction, and the port and port fields it is presented on. -/
def Obligations.DecodeIsTotalByOp : Prop :=
  ∀ w : TxWord,
    (decode w, portTransfer w) =
      match w.toNat / 256 with
      | 0 => (.sample (BitVec.ofNat 8 (w.toNat % 256)), .sample (BitVec.ofNat 8 (w.toNat % 256)))
      | 1 => (.start, .control 0b01#2)
      | 2 => (.stop, .control 0b10#2)
      | _ => (.rsvd, .control 0b11#2)

/-- Words written out from R61, R62, R63 and R64 (those of 95_test_vectors.md V-EN) decode to what they stand for. -/
def Obligations.WrittenWordsDecode : Prop :=
  decode 0b0010101011#10 = .sample 171#8 ∧ decode 0b0000000000#10 = .sample 0#8 ∧ decode 0b0011111111#10 = .sample 255#8 ∧
    decode 0b0100000000#10 = .start ∧ decode 0b0111111111#10 = .start ∧ decode 0b1000000000#10 = .stop ∧
    decode 0b1011000011#10 = .stop ∧ decode 0b1100000000#10 = .rsvd ∧ decode 0b1110100101#10 = .rsvd

/-- Decode and encode agree on every transaction, and on every word up to the ignored data bits. -/
def Obligations.DecodeEncodeAgree : Prop :=
  (∀ i : Instr, i.wellFormed = true → decode (encode i) = i) ∧
  (∀ w : TxWord, encode (decode w) = if w.extractLsb' 8 2 = 0b00#2 then w else w.extractLsb' 8 2 ++ 0#8)

/-- R60, R73: the bits of any program decode back to its transactions, in order. -/
def Obligations.ProgramRoundTrip : Prop :=
  ∀ is : List Instr, decodeProgram (encodeProgram is) = .ok is ∧ (encodeProgram is).length = 10 * is.length

/-- R73: a decoder splits a program into words every 10 bits: of a program of whole words, transaction i is the one that bits 10·i to
10·i + 9 decode to. Which of those bits is bit 9 of the word, and the error that names the number of bits left over on a program that is
not whole words, are the model's choice (log 7). -/
def Obligations.ProgramSplitsEveryTenBits : Prop :=
  ∀ bits : List Bool,
    (bits.length % 10 = 0 →
      ∃ is, decodeProgram bits = .ok is ∧ is.length = bits.length / 10 ∧
        ∀ i < bits.length / 10, is[i]? = some (decode (wordOfBits ((bits.drop (10 * i)).take 10)))) ∧
    (bits.length % 10 ≠ 0 → decodeProgram bits = .error (.leftover (bits.length % 10)))

/-- R66, R68 and R75: e_valid is 1 exactly when OUT is not empty, and the port shows the head's type and lanes, +0.0 in every lane
of an event that is not AMPS. -/
def Obligations.EventPortShowsHead : Prop :=
  (∀ st : State, st.eValid = true ↔ st.out ≠ []) ∧
  (∀ (st : State) (e : Event) (rest : List Event), st.out = e :: rest →
    (∀ lanes, e = .amps lanes → st.eventPort = some (0b00#2, lanes)) ∧
    (e = .pause → st.eventPort = some (0b01#2, Vector.replicate 8 0#64)) ∧
    (e = .offHook → st.eventPort = some (0b10#2, Vector.replicate 8 0#64)) ∧
    (e = .onHook → st.eventPort = some (0b11#2, Vector.replicate 8 0#64)))

/-- R75, R26: a transfer at the event port removes the head of OUT, which the consumer has, and changes nothing else; with OUT empty
there is no transfer. -/
def Obligations.ConsumerTakesHead : Prop :=
  ∀ (st : State) (rest : List HostMove), st.cfg.legal = true → st.host = .take :: rest →
    (∀ e es, st.out = e :: es → step st = .next { st with host := rest, out := es, taken := st.taken ++ [e] }) ∧
    (st.out = [] → step st = .next { st with host := rest })

/-- R71, R72: the words of assembly lines. -/
def Obligations.AssemblerWords : Prop :=
  (∀ v : Sample, assemble [.sample v] = [0b00#2 ++ v]) ∧ assemble [.start] = [0x100#10] ∧ assemble [.stop] = [0x200#10] ∧
    assemble [.rsvd] = [0x300#10] ∧ (∀ (v : Sample) (n : Nat), assemble [.fill v n] = assemble (List.replicate n (.sample v))) ∧
    (∀ p s d, assemble [.config p s d] = []) ∧ assemble [.take] = []

/-! ### 40_window_manager.md -/

/-- R101: a SAMPLE is acceptable exactly when RUN = Running and OUT has room for two more events; otherwise it is held: it waits at the
port and nothing else changes. START lifts a hold on RUN, and the consumer taking events lifts a hold on OUT. -/
def Obligations.SampleHeldUnlessReady : Prop :=
  (∀ st : State, st.sReady = true ↔ st.run = .running ∧ ∀ d, st.cfg.outDepth = some d → st.out.length + 2 ≤ d) ∧
  (∀ (st : State) (v : Sample), st.sReady = false → exec (.sample v) st = .next { st with samplePort := st.samplePort ++ [v] }) ∧
  (∀ st : State, st.Inv → st.run = .stopped → ∃ t, exec .start st = .next t ∧ t.sReady = true) ∧
  (∀ (st : State) (d : Nat), st.run = .running → st.cfg.outDepth = some d → 0 < st.out.length → st.out.length + 1 ≤ d →
    st.takeHead.sReady = true)

/-- R102: P is not full: the accepted sample is appended, and nothing else changes. -/
def Obligations.SampleAppendsWhenNotFull : Prop :=
  ∀ (st : State) (v : Sample), st.sReady = true → st.samplePort = [] → st.p.length < st.cfg.pcap →
    exec (.sample v) st = .next { st with p := st.p ++ [v] }

/-- R103, R104, R108: P is full and silent: the hook outcome of P, then PAUSE; both windows are cleared; the sample is the first of the
new P. -/
def Obligations.SampleFullSilence : Prop :=
  ∀ (st : State) (v : Sample), st.sReady = true → st.samplePort = [] → st.p.length = st.cfg.pcap →
    (st.p.length * windowSumSq st.p : ℤ) - (windowSum st.p : ℤ) ^ 2 ≤ (st.p.length : ℤ) ^ 2 →
    exec (.sample v) st =
      .next { st with p := [v], s := [], hook := (hookOutcome st.hook st.p).1,
                      out := st.out ++ (hookOutcome st.hook st.p).2 ++ [.pause] }

/-- R105, R108: P is full and not silent, and S does not fill: m samples move from the front of P to the back of S, and the sample is
appended to P. -/
def Obligations.SampleFullToneMigrates : Prop :=
  ∀ (st : State) (v : Sample), st.sReady = true → st.samplePort = [] → st.p.length = st.cfg.pcap →
    ¬ (st.p.length * windowSumSq st.p : ℤ) - (windowSum st.p : ℤ) ^ 2 ≤ (st.p.length : ℤ) ^ 2 →
    st.s.length + migrationCount st < st.cfg.scap →
    exec (.sample v) st =
      .next { st with p := st.p.drop (migrationCount st) ++ [v], s := st.s ++ st.p.take (migrationCount st),
                      hook := (hookOutcome st.hook st.p).1, out := st.out ++ (hookOutcome st.hook st.p).2 }

/-- R105, R106, R107, R108: P is full and not silent, and the migration fills S: AMPS of the full S is emitted, S keeps its newest
floor(3·SCAP/4) samples, and the sample is appended to P. -/
def Obligations.SampleFullToneEvaluates : Prop :=
  ∀ (st : State) (v : Sample), st.sReady = true → st.samplePort = [] → st.p.length = st.cfg.pcap →
    ¬ (st.p.length * windowSumSq st.p : ℤ) - (windowSum st.p : ℤ) ^ 2 ≤ (st.p.length : ℤ) ^ 2 →
    st.s.length + migrationCount st = st.cfg.scap →
    exec (.sample v) st =
      .next { st with p := st.p.drop (migrationCount st) ++ [v],
                      s := (st.s ++ st.p.take (migrationCount st)).drop (st.cfg.scap - 3 * st.cfg.scap / 4),
                      hook := (hookOutcome st.hook st.p).1,
                      out := st.out ++ (hookOutcome st.hook st.p).2 ++
                        [.amps (analyze st.cfg.ampTol (st.s ++ st.p.take (migrationCount st)))] }

/-- R108, R31 (I4): no accepted sample is lost or reordered: S followed by P is a suffix of what it was followed by the new sample, which
is the newest of P. -/
def Obligations.AcceptedSampleIsKept : Prop :=
  ∀ (st : State) (v : Sample), st.sReady = true → st.samplePort = [] →
    ∃ t, exec (.sample v) st = .next t ∧ t.s ++ t.p <:+ st.s ++ st.p ++ [v] ∧ t.p.getLast? = some v ∧ t.samplePort = []

/-- R110: from an empty P, PCAP samples are accepted with no event and no other change, and the first classification comes with sample
PCAP + 1: it classifies those PCAP samples, the hook test first; in silence PAUSE follows, and in a tone samples migrate and no PAUSE
comes. -/
def Obligations.FirstClassificationAfterPcap : Prop :=
  ∀ (st : State) (vs : List Sample) (v : Sample), st.cfg.legal = true → st.sReady = true → st.samplePort = [] → st.p = [] →
    vs.length = st.cfg.pcap → st.host = sampleMoves (vs ++ [v]) →
    runSteps vs.length st = .next { st with p := vs, host := sampleMoves [v] } ∧
    ∃ t last, runSteps (vs.length + 1) st = .next t ∧ t.hook = (hookOutcome st.hook vs).1 ∧
      t.out = st.out ++ (hookOutcome st.hook vs).2 ++ last ∧
      (silent vs = true → t.p = [v] ∧ t.s = [] ∧ last = [.pause]) ∧
      (silent vs = false → t.p = vs.drop (migrationCount st) ++ [v] ∧ .pause ∉ last)

/-- R110, R104: in continuing silence PAUSE comes every PCAP samples. From an empty P, samples arrive of which every PCAP in a row, one
block after another, are silent, and then 1 to PCAP samples more: each block has been classified, with its hook event and then PAUSE,
and P holds the samples after the last block. -/
def Obligations.SilenceCadence : Prop :=
  ∀ (st : State) (blocks : List (List Sample)) (rest : List Sample), st.cfg.legal = true → st.cfg.outDepth = none →
    st.run = .running → st.samplePort = [] → st.p = [] → (∀ b ∈ blocks, b.length = st.cfg.pcap ∧ silent b = true) →
    1 ≤ rest.length → rest.length ≤ st.cfg.pcap → st.host = sampleMoves (blocks.flatten ++ rest) →
    runSteps (blocks.length * st.cfg.pcap + rest.length) st =
      .next { st with p := rest, s := if blocks = [] then st.s else [], hook := (silenceOutcome st.hook blocks).1,
                      out := st.out ++ (silenceOutcome st.hook blocks).2, host := [] }

/-- R110, R226: with PCAP = 67 and SCAP = 288, a tone that starts from empty windows (no 67 samples of it in a row are silent) gives its
first AMPS when sample 340 is accepted, and S is then trimmed to 216 samples. -/
def Obligations.ReferenceFirstAmpsAtSample340 : Prop :=
  ∀ (st : State) (vs : List Sample), st.cfg.legal = true → st.cfg.pcap = 67 → st.cfg.scap = 288 → st.cfg.outDepth = none →
    st.run = .running → st.samplePort = [] → st.p = [] → st.s = [] → st.out = [] → vs.length = 340 → st.host = sampleMoves vs →
    (∀ i, i + 67 ≤ 340 → silent ((vs.drop i).take 67) = false) →
    ∃ u t, runSteps 339 st = .next u ∧ runSteps 340 st = .next t ∧
      u.out.countP Event.isAmps = 0 ∧ t.out.countP Event.isAmps = 1 ∧ .pause ∉ t.out ∧ t.s.length = 216

/-- R111: with PCAP = 1 every classification is silence: every accepted sample but the first emits PAUSE, and none emits AMPS. -/
def Obligations.PcapOneNeverEvaluates : Prop :=
  ∀ (st : State) (v x : Sample), st.sReady = true → st.samplePort = [] → st.cfg.pcap = 1 → st.p = [x] →
    ∃ t new, exec (.sample v) st = .next t ∧ t.out = st.out ++ new ∧ new.getLast? = some .pause ∧ new.countP Event.isAmps = 0 ∧
      t.p = [v] ∧ t.s = []

/-! ### 41_pause_hook_detector.md -/

/-- R121, R122: a window is silent exactly when its population standard deviation is at most 1.0, which the integer test decides. -/
def Obligations.SilentIffDeviationAtMostOne : Prop :=
  ∀ w : List Sample, w ≠ [] →
    (silent w = true ↔
      Real.sqrt ((w.map fun x => ((sampleValue x : ℝ) - (windowSum w : ℝ) / w.length) ^ 2).sum / w.length) ≤ 1) ∧
    (silent w = true ↔ (w.length * windowSumSq w : ℤ) - (windowSum w : ℤ) ^ 2 ≤ (w.length : ℤ) ^ 2)

/-- R124: the integer widths of the classification of a window of at most 65535 samples. -/
def Obligations.ClassificationFitsWidths : Prop :=
  ∀ w : List Sample, w.length ≤ 65535 →
    windowSum w ≤ 255 * w.length ∧ 255 * w.length < 2 ^ 24 ∧ windowSumSq w ≤ 65025 * w.length ∧ 65025 * w.length < 2 ^ 32 ∧
      w.length * windowSumSq w < 2 ^ 48 ∧ windowSum w ^ 2 < 2 ^ 48 ∧ w.length ^ 2 < 2 ^ 32 ∧
      windowSum w ^ 2 ≤ w.length * windowSumSq w

/-- R125, R126, R127: the hook hysteresis of a classification, on the real mean of the full P: the transition and its event come first in
the step, and in every other case HOOK stays and no hook event is emitted. -/
def Obligations.HookHysteresis : Prop :=
  ∀ (st : State) (v : Sample), st.sReady = true → st.samplePort = [] → st.p.length = st.cfg.pcap → 0 < st.cfg.pcap →
    ∃ t new, exec (.sample v) st = .next t ∧ t.out = st.out ++ new ∧
      (st.hook = .onHook → (windowSum st.p : ℝ) / st.p.length > 180 → t.hook = .offHook ∧ new.head? = some .offHook) ∧
      (st.hook = .offHook → (windowSum st.p : ℝ) / st.p.length < 20 → t.hook = .onHook ∧ new.head? = some .onHook) ∧
      ((st.hook = .onHook ∧ (windowSum st.p : ℝ) / st.p.length ≤ 180) ∨ (st.hook = .offHook ∧ 20 ≤ (windowSum st.p : ℝ) / st.p.length) →
        t.hook = st.hook ∧ new.countP Event.isHook = 0)

/-- R127: over any run with no STOP and no reset, the hook events emitted strictly alternate, and agree with HOOK. -/
def Obligations.HookEventsAlternate : Prop :=
  ∀ (n : Nat) (st t : State), (∀ m ∈ st.host, m.instr ≠ some .stop ∧ m ≠ .rst) → runSteps n st = .next t →
    ∃ new, t.taken ++ t.out = st.taken ++ st.out ++ new ∧ hookTrace st.hook new = some t.hook

/-- R132: a window of equal samples is silent whatever its length; two samples are silent exactly when they differ by at most 2. -/
def Obligations.SilenceCorners : Prop :=
  (∀ (n : Nat) (c : Sample), silent (List.replicate n c) = true) ∧
  (∀ a b : Sample, silent [a, b] = true ↔ |(sampleValue a : ℤ) - sampleValue b| ≤ 2)

/-! ### 42_tone_analyzer.md -/

/-- R143: the table of bin numbers; each is round(f_j × 0.03), no product is at a tie, and in the reference configuration the window
duration N / SAMPLE_RATE = 288 / 9615.38 gives the same number. -/
def Obligations.BinNumbersAreRounded : Prop :=
  binNumbers = #v[21, 23, 26, 28, 36, 40, 44, 49] ∧
  ∀ j : Fin 8, (binNumbers[j] : ℤ) = ⌊(targetFrequencies[j] : ℝ) * 0.03 + 1 / 2⌋ ∧
    (∀ n : ℤ, (targetFrequencies[j] : ℝ) * 0.03 ≠ n + 1 / 2) ∧
    (binNumbers[j] : ℤ) = ⌊(targetFrequencies[j] : ℝ) * 288 / 9615.38 + 1 / 2⌋

/-- R146, R150: each lane of an analysis is finite, not NaN, not negative and not −0.0; and it is within AMP_TOL of the exact amplitude of
its bin wherever any binary64 value is. So it is for every AMP_TOL of at least 2^-46, and for every AMP_TOL > 0 over a window of zeros.
That a lane may be any finite non-negative value where none is within AMP_TOL is the model's choice (log 5), and the number that the 64
bits of a lane stand for is presumed (log 6). -/
def Obligations.LanesWithinTolerance : Prop :=
  ∀ (tol : Tolerance) (w : List Sample) (j : Fin 8),
    (analyze tol w)[j].isFinite = true ∧ (analyze tol w)[j].signBit = 0#1 ∧
      ∃ A, IsExactAmplitude binNumbers[j] w A ∧ 0 ≤ A ∧
        ((∃ b : F64, b.isFinite = true ∧ b.signBit = 0#1 ∧ |(b.magnitude : ℝ) - A| ≤ tol.value) →
          |((analyze tol w)[j].magnitude : ℝ) - A| ≤ tol.value) ∧
        ((1 : ℝ) / 2 ^ 46 ≤ tol.value → |((analyze tol w)[j].magnitude : ℝ) - A| ≤ tol.value) ∧
        ((∀ x ∈ w, x = 0#8) → 0 < tol.value → A = 0 ∧ |((analyze tol w)[j].magnitude : ℝ) - A| ≤ tol.value)

/-- R148: the exact amplitude does not change under a circular rotation of the window, nor under its reversal. -/
def Obligations.AmplitudeRotationReversal : Prop :=
  ∀ (k r : Nat) (w : List Sample) (A : ℝ), IsExactAmplitude k w A → IsExactAmplitude k (w.rotate r) A ∧ IsExactAmplitude k w.reverse A

/-- R149, R153: an impulse v at any place in a window that is otherwise 0 has amplitude v/N in every lane. -/
def Obligations.ImpulseAmplitude : Prop :=
  ∀ (k a b : Nat) (v : Sample),
    IsExactAmplitude k (List.replicate a 0#8 ++ v :: List.replicate b 0#8) ((sampleValue v : ℝ) / (a + b + 1 : ℕ))

/-- R149: DC rejection: if N does not divide k, a constant window has amplitude 0, whatever the constant. -/
def Obligations.DcRejection : Prop :=
  ∀ (k n : Nat) (c : Sample), ¬ n ∣ k → IsExactAmplitude k (List.replicate n c) 0

/-- R150: if N divides k, the amplitude is the mean of the window. -/
def Obligations.MeanWhenLengthDividesBin : Prop :=
  ∀ (k : Nat) (w : List Sample), w.length ∣ k → IsExactAmplitude k w ((windowSum w : ℝ) / w.length)

/-- R150: aliasing: two bins that are equal or opposite modulo N have equal amplitudes for every window of N samples. -/
def Obligations.AliasedBinsAgree : Prop :=
  ∀ (k k' : Nat) (w : List Sample) (A : ℝ), (k % w.length = k' % w.length ∨ (k + k') % w.length = 0) →
    IsExactAmplitude k w A → IsExactAmplitude k' w A

/-- R152, which marks it as general knowledge and not of the source (G3, informative): the Goertzel recurrence gives the same exact
value: N²·A² = s_(N−1)² + s_(N−2)² − 2·cos(2πk/N)·s_(N−1)·s_(N−2). -/
def Obligations.GoertzelRecurrenceAgrees : Prop :=
  ∀ (k : Nat) (w : List Sample) (A : ℝ), IsExactAmplitude k w A →
    (w.length : ℝ) ^ 2 * A ^ 2 =
      (fun q : ℝ × ℝ => q.1 ^ 2 + q.2 ^ 2 - 2 * Real.cos (2 * Real.pi * k / w.length) * q.1 * q.2)
        (goertzelPair (Real.cos (2 * Real.pi * k / w.length)) (w.map fun x => (sampleValue x : ℝ)))

/-! ### 43_control.md -/

/-- R161: START is the word 0x100, on the control port with c_code = 01. From Stopped it sets RUN and clears both windows, and changes
nothing else; while Running it does nothing. -/
def Obligations.StartEffect : Prop :=
  decode 0x100#10 = .start ∧ portTransfer 0x100#10 = .control 0b01#2 ∧
  ∀ st : State, (st.run = .stopped → exec .start st = .next { st with run := .running, p := [], s := [] }) ∧
    (st.run = .running → exec .start st = .next st)

/-- R163: STOP is the word 0x200, on the control port with c_code = 10. From Running it clears RUN, both windows and OUT, and changes
nothing else; while Stopped it does nothing. -/
def Obligations.StopEffect : Prop :=
  decode 0x200#10 = .stop ∧ portTransfer 0x200#10 = .control 0b10#2 ∧
  ∀ st : State, (st.run = .running → exec .stop st = .next { st with run := .stopped, p := [], s := [], out := [] }) ∧
    (st.run = .stopped → exec .stop st = .next st)

/-- R165: RSVD is the word 0x300, or the code 0b00 driven on the control port. It sets ERR and changes nothing else, in either RUN
state. -/
def Obligations.RsvdEffect : Prop :=
  decode 0x300#10 = .rsvd ∧ decodeControl 0b11#2 = .rsvd ∧ decodeControl 0b00#2 = .rsvd ∧ ∀ st : State, exec .rsvd st = .next { st with err := true }

/-- R162, R164: a second START or STOP changes nothing; and STOP then START gives the state of a freshly reset and started block but for
HOOK and ERR, which keep their values. -/
def Obligations.ControlIdempotentAndRestart : Prop :=
  ∀ st : State,
    (∃ t, exec .start st = .next t ∧ exec .start t = .next t) ∧ (∃ t, exec .stop st = .next t ∧ exec .stop t = .next t) ∧
      (st.Inv → ∃ t u f, exec .stop st = .next t ∧ exec .start t = .next u ∧ exec .start st.applyReset = .next f ∧
        u = { f with hook := st.hook, err := st.err })

/-- R166, R28: no step writes the configuration. -/
def Obligations.ConfigurationIsFixed : Prop := ∀ st t : State, step st = .next t → t.cfg = st.cfg

/-! ### 60_exceptions.md and 70_reset_and_hazards.md -/

/-- R200, R201, R202: in a legal configuration every step answers a next state: nothing traps, and no sample value and no computation
causes an error. -/
def Obligations.NoStepTraps : Prop := ∀ st : State, st.cfg.legal = true → ∃ t, step st = .next t

/-- R64, R160: when the controller drives a code on the control port, the step executes it, in any state and whatever waits at the sample
port. -/
def Obligations.StepRunsControlCode : Prop :=
  ∀ (st : State) (c : CtrlCode) (rest : List HostMove), st.cfg.legal = true → st.host = .control c :: rest →
    st.cReady = true ∧
    step st = exec (if c = 0b01#2 then .start else if c = 0b10#2 then .stop else .rsvd) { st with host := rest }

/-- R220: a reset in mid-run gives every piece of the block's state its reset value, and leaves the waiting samples untouched. -/
def Obligations.ResetMidRun : Prop :=
  ∀ (st : State) (rest : List HostMove), st.cfg.legal = true → st.host = .rst :: rest →
    ∃ t, step st = .next t ∧ t.run = .stopped ∧ t.p = [] ∧ t.s = [] ∧ t.hook = .onHook ∧ t.err = false ∧ t.out = [] ∧
      t.status = 0#64 ∧ t.cfg = st.cfg ∧ t.samplePort = st.samplePort ∧ t.host = rest ∧ t.taken = st.taken

/-- R225: with a finite OUT_DEPTH and fewer than two free slots, if no agent takes an event and no control code or reset comes, every
sample is held for good; with OUT_DEPTH = ∞ (90_conflicts.md C3) no sample is ever held while Running. -/
def Obligations.FullFifoHoldsSamples : Prop :=
  (∀ (n : Nat) (st : State) (d : Nat) (vs : List Sample), st.cfg.legal = true → st.cfg.outDepth = some d → d < st.out.length + 2 →
    st.host = sampleMoves vs →
    runSteps n st = .next { st with samplePort := st.samplePort ++ vs.take n, host := sampleMoves (vs.drop n) }) ∧
  (∀ st : State, st.cfg.outDepth = none → st.run = .running → st.sReady = true)

/-- R228, R46: a waiting sample that stays acceptable is taken: with OUT_DEPTH = ∞ and a running block, when the host only takes events
or leaves the boundary to the samples, every waiting sample has been accepted after as many steps as there are moves and samples. They
have the effect they have when the host presents them as words in that order to the block with an empty port: the same windows and flags,
and the same events, taken or in OUT. -/
def Obligations.WaitingSamplesAreTaken : Prop :=
  ∀ st : State, st.cfg.legal = true → st.cfg.outDepth = none → st.run = .running → (∀ m ∈ st.host, m = .take ∨ m = .sampleTurn) →
    ∃ t u, runSteps (st.host.length + st.samplePort.length) st = .next t ∧ t.samplePort = [] ∧ t.host = [] ∧
      runSteps st.samplePort.length { st with samplePort := [], host := sampleMoves st.samplePort } = .next u ∧
      t.run = u.run ∧ t.p = u.p ∧ t.s = u.s ∧ t.hook = u.hook ∧ t.err = u.err ∧ t.taken ++ t.out = u.taken ++ u.out
end

