-- ==== Sys2Proof/Laws/Analyzer.lean ====
section
/-! SUPPORT. What is known of the lanes of an analysis: they meet R146 (spec/42_tone_analyzer.md), and nothing else. -/

namespace Sys2Proof.Machine

/-- The value of a lane is one that R146 allows. -/
theorem laneValue_allowed (tol : Tolerance) (k : Nat) (w : List Sample) : LaneAllowed tol k w (laneValue tol k w) :=
  (@Config.amplitude k w (LaneAllowed tol k w) ⟨allowedLane tol k w⟩).property

theorem LaneAllowed.isAmplitude {tol : Tolerance} {k : Nat} {w : List Sample} {a : F64} (h : LaneAllowed tol k w a) :
    a.isAmplitude = true := h.elim (fun h => h.1) fun h => h.1

/-- Where any binary64 value meets R146, the lane meets it. -/
theorem laneValue_meets {tol : Tolerance} {k : Nat} {w : List Sample} {b : F64} (h : MeetsTolerance tol k w b) :
    MeetsTolerance tol k w (laneValue tol k w) :=
  (laneValue_allowed tol k w).elim id fun h' => absurd h (h'.2 b)

/-- A binary64 value lies within 2^-46 of every exact amplitude. -/
theorem exists_lane_close {k : Nat} {w : List Sample} {A : ℝ} (hA : IsExactAmplitude k w A) :
    ∃ b : F64, b.isAmplitude = true ∧ |(b.magnitude : ℝ) - A| ≤ 1 / 2 ^ 46 := by
  have h0 : 0 ≤ A := by rw [hA]; exact Real.sqrt_nonneg _
  have hf := Nat.floor_le (show (0 : ℝ) ≤ A * 2 ^ 45 + 1 / 2 by positivity)
  have hg := Nat.lt_floor_add_one (A * 2 ^ 45 + 1 / 2)
  have hm : ⌊A * 2 ^ 45 + 1 / 2⌋₊ < 2 ^ 53 := by
    rw [Nat.floor_lt (by positivity)]
    have := exact_le hA
    norm_num
    linarith
  generalize ⌊A * 2 ^ 45 + 1 / 2⌋₊ = m at *
  refine ⟨fixedLane m, by simp [F64.isAmplitude, fixedLane_finite _ hm, fixedLane_sign _ hm], ?_⟩
  rw [fixedLane_magnitude _ hm]
  push_cast
  rw [abs_le]
  norm_num at *
  constructor <;> linarith


/-- Lane `j` of an analysis is that of bin number `k_j` (R152). -/
theorem analyze_getElem (tol : Tolerance) (w : List Sample) (j : Nat) (h : j < 8) :
    (analyze tol w)[j] = laneValue tol binNumbers[j] w := by
  simp [analyze]

/-- An AMPS event of an analysis is one the block can hold (R69). -/
theorem analyze_legal (tol : Tolerance) (w : List Sample) : (Event.amps (analyze tol w)).legal = true := by
  simp only [Event.legal, analyze, List.all_eq_true]
  intro a ha
  rw [Vector.toList_map, List.mem_map] at ha
  obtain ⟨k, -, rfl⟩ := ha
  exact (laneValue_allowed tol k w).isAmplitude

end Sys2Proof.Machine
end

