-- ==== Sys2Proof/Laws/Encoding.lean ====
section
/-! SUPPORT. The fields of the transaction word (spec/30_encoding.md R61). -/

namespace Sys2Proof

@[simp] theorem op_ofFields (op : BitVec 2) (data : BitVec 8) : TxWord.op (TxWord.ofFields op data) = op := by
  ext i hi
  simp only [TxWord.op, TxWord.ofFields, BitVec.getElem_extractLsb', BitVec.getLsbD_append]
  have h1 : ¬ 8 + i < 8 := by omega
  have h2 : 8 + i - 8 = i := by omega
  simp [h2, hi]

@[simp] theorem data_ofFields (op : BitVec 2) (data : BitVec 8) : TxWord.data (TxWord.ofFields op data) = data := by
  ext i hi
  simp only [TxWord.data, TxWord.ofFields, BitVec.getElem_extractLsb', BitVec.getLsbD_append]
  simp [hi]

/-- A word is its two fields. -/
theorem ofFields_op_data (w : TxWord) : TxWord.ofFields (TxWord.op w) (TxWord.data w) = w := by
  revert w
  decide

/-- The bits of a word, from bit 9 down, give the word back. -/
theorem wordOfBits_bitsOfWord (w : TxWord) : wordOfBits (bitsOfWord w) = w := by
  revert w
  decide

end Sys2Proof
end

