-- ==== Sys2Proof/Laws/State.lean ====
section
/-! SUPPORT. One lemma per field per update of the state, true by rfl, so that no proof unfolds a record update. -/

namespace Sys2Proof.Machine

variable (st : State)

@[simp] theorem State.appendSample_cfg (v : Sample) : (st.appendSample v).cfg = st.cfg := rfl
@[simp] theorem State.appendSample_run (v : Sample) : (st.appendSample v).run = st.run := rfl
@[simp] theorem State.appendSample_p (v : Sample) : (st.appendSample v).p = st.p ++ [v] := rfl
@[simp] theorem State.appendSample_s (v : Sample) : (st.appendSample v).s = st.s := rfl
@[simp] theorem State.appendSample_hook (v : Sample) : (st.appendSample v).hook = st.hook := rfl
@[simp] theorem State.appendSample_err (v : Sample) : (st.appendSample v).err = st.err := rfl
@[simp] theorem State.appendSample_out (v : Sample) : (st.appendSample v).out = st.out := rfl
@[simp] theorem State.appendSample_samplePort (v : Sample) : (st.appendSample v).samplePort = st.samplePort := rfl
@[simp] theorem State.appendSample_host (v : Sample) : (st.appendSample v).host = st.host := rfl
@[simp] theorem State.appendSample_taken (v : Sample) : (st.appendSample v).taken = st.taken := rfl

@[simp] theorem State.clearWindows_cfg : st.clearWindows.cfg = st.cfg := rfl
@[simp] theorem State.clearWindows_run : st.clearWindows.run = st.run := rfl
@[simp] theorem State.clearWindows_p : st.clearWindows.p = [] := rfl
@[simp] theorem State.clearWindows_s : st.clearWindows.s = [] := rfl
@[simp] theorem State.clearWindows_hook : st.clearWindows.hook = st.hook := rfl
@[simp] theorem State.clearWindows_err : st.clearWindows.err = st.err := rfl
@[simp] theorem State.clearWindows_out : st.clearWindows.out = st.out := rfl
@[simp] theorem State.clearWindows_samplePort : st.clearWindows.samplePort = st.samplePort := rfl
@[simp] theorem State.clearWindows_host : st.clearWindows.host = st.host := rfl
@[simp] theorem State.clearWindows_taken : st.clearWindows.taken = st.taken := rfl

@[simp] theorem State.migrate_cfg : st.migrate.cfg = st.cfg := rfl
@[simp] theorem State.migrate_run : st.migrate.run = st.run := rfl
@[simp] theorem State.migrate_p : st.migrate.p = (migrateLoop st.cfg.pcap st.cfg.scap st.p st.s).1 := rfl
@[simp] theorem State.migrate_s : st.migrate.s = (migrateLoop st.cfg.pcap st.cfg.scap st.p st.s).2 := rfl
@[simp] theorem State.migrate_hook : st.migrate.hook = st.hook := rfl
@[simp] theorem State.migrate_err : st.migrate.err = st.err := rfl
@[simp] theorem State.migrate_out : st.migrate.out = st.out := rfl
@[simp] theorem State.migrate_samplePort : st.migrate.samplePort = st.samplePort := rfl
@[simp] theorem State.migrate_host : st.migrate.host = st.host := rfl
@[simp] theorem State.migrate_taken : st.migrate.taken = st.taken := rfl

@[simp] theorem State.trim_cfg : st.trim.cfg = st.cfg := rfl
@[simp] theorem State.trim_run : st.trim.run = st.run := rfl
@[simp] theorem State.trim_p : st.trim.p = st.p := rfl
@[simp] theorem State.trim_s : st.trim.s = trimLoop st.cfg.scap st.s := rfl
@[simp] theorem State.trim_hook : st.trim.hook = st.hook := rfl
@[simp] theorem State.trim_err : st.trim.err = st.err := rfl
@[simp] theorem State.trim_out : st.trim.out = st.out := rfl
@[simp] theorem State.trim_samplePort : st.trim.samplePort = st.samplePort := rfl
@[simp] theorem State.trim_host : st.trim.host = st.host := rfl
@[simp] theorem State.trim_taken : st.trim.taken = st.taken := rfl

@[simp] theorem State.emit_cfg (e : Event) : (st.emit e).cfg = st.cfg := rfl
@[simp] theorem State.emit_run (e : Event) : (st.emit e).run = st.run := rfl
@[simp] theorem State.emit_p (e : Event) : (st.emit e).p = st.p := rfl
@[simp] theorem State.emit_s (e : Event) : (st.emit e).s = st.s := rfl
@[simp] theorem State.emit_hook (e : Event) : (st.emit e).hook = st.hook := rfl
@[simp] theorem State.emit_err (e : Event) : (st.emit e).err = st.err := rfl
@[simp] theorem State.emit_out (e : Event) : (st.emit e).out = st.out ++ [e] := rfl
@[simp] theorem State.emit_samplePort (e : Event) : (st.emit e).samplePort = st.samplePort := rfl
@[simp] theorem State.emit_host (e : Event) : (st.emit e).host = st.host := rfl
@[simp] theorem State.emit_taken (e : Event) : (st.emit e).taken = st.taken := rfl

@[simp] theorem State.clearOut_cfg : st.clearOut.cfg = st.cfg := rfl
@[simp] theorem State.clearOut_run : st.clearOut.run = st.run := rfl
@[simp] theorem State.clearOut_p : st.clearOut.p = st.p := rfl
@[simp] theorem State.clearOut_s : st.clearOut.s = st.s := rfl
@[simp] theorem State.clearOut_hook : st.clearOut.hook = st.hook := rfl
@[simp] theorem State.clearOut_err : st.clearOut.err = st.err := rfl
@[simp] theorem State.clearOut_out : st.clearOut.out = [] := rfl
@[simp] theorem State.clearOut_samplePort : st.clearOut.samplePort = st.samplePort := rfl
@[simp] theorem State.clearOut_host : st.clearOut.host = st.host := rfl
@[simp] theorem State.clearOut_taken : st.clearOut.taken = st.taken := rfl

@[simp] theorem State.present_cfg (v : Sample) : (st.present v).cfg = st.cfg := rfl
@[simp] theorem State.present_run (v : Sample) : (st.present v).run = st.run := rfl
@[simp] theorem State.present_p (v : Sample) : (st.present v).p = st.p := rfl
@[simp] theorem State.present_s (v : Sample) : (st.present v).s = st.s := rfl
@[simp] theorem State.present_hook (v : Sample) : (st.present v).hook = st.hook := rfl
@[simp] theorem State.present_err (v : Sample) : (st.present v).err = st.err := rfl
@[simp] theorem State.present_out (v : Sample) : (st.present v).out = st.out := rfl
@[simp] theorem State.present_samplePort (v : Sample) : (st.present v).samplePort = st.samplePort ++ [v] := rfl
@[simp] theorem State.present_host (v : Sample) : (st.present v).host = st.host := rfl
@[simp] theorem State.present_taken (v : Sample) : (st.present v).taken = st.taken := rfl

@[simp] theorem State.applyReset_cfg : st.applyReset.cfg = st.cfg := rfl
@[simp] theorem State.applyReset_run : st.applyReset.run = .stopped := rfl
@[simp] theorem State.applyReset_p : st.applyReset.p = [] := rfl
@[simp] theorem State.applyReset_s : st.applyReset.s = [] := rfl
@[simp] theorem State.applyReset_hook : st.applyReset.hook = .onHook := rfl
@[simp] theorem State.applyReset_err : st.applyReset.err = false := rfl
@[simp] theorem State.applyReset_out : st.applyReset.out = [] := rfl
@[simp] theorem State.applyReset_samplePort : st.applyReset.samplePort = st.samplePort := rfl
@[simp] theorem State.applyReset_host : st.applyReset.host = st.host := rfl
@[simp] theorem State.applyReset_taken : st.applyReset.taken = st.taken := rfl

@[simp] theorem State.setHook_cfg (h : HookState) : (st.setHook h).cfg = st.cfg := rfl
@[simp] theorem State.setHook_run (h : HookState) : (st.setHook h).run = st.run := rfl
@[simp] theorem State.setHook_p (h : HookState) : (st.setHook h).p = st.p := rfl
@[simp] theorem State.setHook_s (h : HookState) : (st.setHook h).s = st.s := rfl
@[simp] theorem State.setHook_hook (h : HookState) : (st.setHook h).hook = h := rfl
@[simp] theorem State.setHook_err (h : HookState) : (st.setHook h).err = st.err := rfl
@[simp] theorem State.setHook_out (h : HookState) : (st.setHook h).out = st.out := rfl
@[simp] theorem State.setHook_samplePort (h : HookState) : (st.setHook h).samplePort = st.samplePort := rfl
@[simp] theorem State.setHook_host (h : HookState) : (st.setHook h).host = st.host := rfl
@[simp] theorem State.setHook_taken (h : HookState) : (st.setHook h).taken = st.taken := rfl

@[simp] theorem State.setRun_cfg (r : RunState) : (st.setRun r).cfg = st.cfg := rfl
@[simp] theorem State.setRun_run (r : RunState) : (st.setRun r).run = r := rfl
@[simp] theorem State.setRun_p (r : RunState) : (st.setRun r).p = st.p := rfl
@[simp] theorem State.setRun_s (r : RunState) : (st.setRun r).s = st.s := rfl
@[simp] theorem State.setRun_hook (r : RunState) : (st.setRun r).hook = st.hook := rfl
@[simp] theorem State.setRun_err (r : RunState) : (st.setRun r).err = st.err := rfl
@[simp] theorem State.setRun_out (r : RunState) : (st.setRun r).out = st.out := rfl
@[simp] theorem State.setRun_samplePort (r : RunState) : (st.setRun r).samplePort = st.samplePort := rfl
@[simp] theorem State.setRun_host (r : RunState) : (st.setRun r).host = st.host := rfl
@[simp] theorem State.setRun_taken (r : RunState) : (st.setRun r).taken = st.taken := rfl

@[simp] theorem State.setErr_cfg : st.setErr.cfg = st.cfg := rfl
@[simp] theorem State.setErr_run : st.setErr.run = st.run := rfl
@[simp] theorem State.setErr_p : st.setErr.p = st.p := rfl
@[simp] theorem State.setErr_s : st.setErr.s = st.s := rfl
@[simp] theorem State.setErr_hook : st.setErr.hook = st.hook := rfl
@[simp] theorem State.setErr_err : st.setErr.err = true := rfl
@[simp] theorem State.setErr_out : st.setErr.out = st.out := rfl
@[simp] theorem State.setErr_samplePort : st.setErr.samplePort = st.samplePort := rfl
@[simp] theorem State.setErr_host : st.setErr.host = st.host := rfl
@[simp] theorem State.setErr_taken : st.setErr.taken = st.taken := rfl

@[simp] theorem State.presentNext_cfg (w : TxWord) : (st.presentNext w).cfg = st.cfg := rfl
@[simp] theorem State.presentNext_run (w : TxWord) : (st.presentNext w).run = st.run := rfl
@[simp] theorem State.presentNext_p (w : TxWord) : (st.presentNext w).p = st.p := rfl
@[simp] theorem State.presentNext_s (w : TxWord) : (st.presentNext w).s = st.s := rfl
@[simp] theorem State.presentNext_hook (w : TxWord) : (st.presentNext w).hook = st.hook := rfl
@[simp] theorem State.presentNext_err (w : TxWord) : (st.presentNext w).err = st.err := rfl
@[simp] theorem State.presentNext_out (w : TxWord) : (st.presentNext w).out = st.out := rfl
@[simp] theorem State.presentNext_samplePort (w : TxWord) : (st.presentNext w).samplePort = st.samplePort := rfl
@[simp] theorem State.presentNext_host (w : TxWord) : (st.presentNext w).host = .word w :: st.host := rfl
@[simp] theorem State.presentNext_taken (w : TxWord) : (st.presentNext w).taken = st.taken := rfl

@[simp] theorem State.silenceAction_cfg : st.silenceAction.cfg = st.cfg := rfl
@[simp] theorem State.silenceAction_run : st.silenceAction.run = st.run := rfl
@[simp] theorem State.silenceAction_p : st.silenceAction.p = [] := rfl
@[simp] theorem State.silenceAction_s : st.silenceAction.s = [] := rfl
@[simp] theorem State.silenceAction_hook : st.silenceAction.hook = st.hook := rfl
@[simp] theorem State.silenceAction_err : st.silenceAction.err = st.err := rfl
@[simp] theorem State.silenceAction_out : st.silenceAction.out = st.out ++ [.pause] := rfl
@[simp] theorem State.silenceAction_samplePort : st.silenceAction.samplePort = st.samplePort := rfl
@[simp] theorem State.silenceAction_host : st.silenceAction.host = st.host := rfl
@[simp] theorem State.silenceAction_taken : st.silenceAction.taken = st.taken := rfl

@[simp] theorem State.evaluateAndTrim_cfg : st.evaluateAndTrim.cfg = st.cfg := rfl
@[simp] theorem State.evaluateAndTrim_run : st.evaluateAndTrim.run = st.run := rfl
@[simp] theorem State.evaluateAndTrim_p : st.evaluateAndTrim.p = st.p := rfl
@[simp] theorem State.evaluateAndTrim_s : st.evaluateAndTrim.s = trimLoop st.cfg.scap st.s := rfl
@[simp] theorem State.evaluateAndTrim_hook : st.evaluateAndTrim.hook = st.hook := rfl
@[simp] theorem State.evaluateAndTrim_err : st.evaluateAndTrim.err = st.err := rfl
@[simp] theorem State.evaluateAndTrim_out : st.evaluateAndTrim.out = st.out ++ [.amps (analyze st.cfg.ampTol st.s)] := rfl
@[simp] theorem State.evaluateAndTrim_samplePort : st.evaluateAndTrim.samplePort = st.samplePort := rfl
@[simp] theorem State.evaluateAndTrim_host : st.evaluateAndTrim.host = st.host := rfl
@[simp] theorem State.evaluateAndTrim_taken : st.evaluateAndTrim.taken = st.taken := rfl

@[simp] theorem State.dropSample_cfg : st.dropSample.cfg = st.cfg := rfl
@[simp] theorem State.dropSample_run : st.dropSample.run = st.run := rfl
@[simp] theorem State.dropSample_p : st.dropSample.p = st.p := rfl
@[simp] theorem State.dropSample_s : st.dropSample.s = st.s := rfl
@[simp] theorem State.dropSample_hook : st.dropSample.hook = st.hook := rfl
@[simp] theorem State.dropSample_err : st.dropSample.err = st.err := rfl
@[simp] theorem State.dropSample_out : st.dropSample.out = st.out := rfl
@[simp] theorem State.dropSample_samplePort : st.dropSample.samplePort = st.samplePort.tail := rfl
@[simp] theorem State.dropSample_host : st.dropSample.host = st.host := rfl
@[simp] theorem State.dropSample_taken : st.dropSample.taken = st.taken := rfl

@[simp] theorem State.dropMove_cfg : st.dropMove.cfg = st.cfg := rfl
@[simp] theorem State.dropMove_run : st.dropMove.run = st.run := rfl
@[simp] theorem State.dropMove_p : st.dropMove.p = st.p := rfl
@[simp] theorem State.dropMove_s : st.dropMove.s = st.s := rfl
@[simp] theorem State.dropMove_hook : st.dropMove.hook = st.hook := rfl
@[simp] theorem State.dropMove_err : st.dropMove.err = st.err := rfl
@[simp] theorem State.dropMove_out : st.dropMove.out = st.out := rfl
@[simp] theorem State.dropMove_samplePort : st.dropMove.samplePort = st.samplePort := rfl
@[simp] theorem State.dropMove_host : st.dropMove.host = st.host.tail := rfl
@[simp] theorem State.dropMove_taken : st.dropMove.taken = st.taken := rfl

end Sys2Proof.Machine
end

