-- ==== Sys2Proof/Laws/Ops.lean ====
section
/-! SUPPORT. For each shared operation, one lemma that says once everything it does. -/

namespace Sys2Proof.Machine

/-! ### The window loops -/

/-- The migration loop in closed form: as many samples move as P is above three quarters and S has room for. -/
theorem migrateLoop_eq (pcap scap : Nat) (p s : List Sample) :
    migrateLoop pcap scap p s =
      (p.drop (min (p.length - 3 * pcap / 4) (scap - s.length)), s ++ p.take (min (p.length - 3 * pcap / 4) (scap - s.length))) := by
  induction p generalizing s with
  | nil => simp [migrateLoop]
  | cons x p ih =>
    rw [migrateLoop]
    split
    · next h =>
      obtain ⟨m, hm⟩ : ∃ m, min ((x :: p).length - 3 * pcap / 4) (scap - s.length) = m + 1 := by
        refine ⟨min (p.length - 3 * pcap / 4) (scap - (s ++ [x]).length), ?_⟩
        simp only [List.length_cons, List.length_append, List.length_nil] at *
        omega
      have hm' : min (p.length - 3 * pcap / 4) (scap - (s ++ [x]).length) = m := by
        simp only [List.length_cons, List.length_append, List.length_nil] at *
        omega
      rw [ih, hm, hm']
      simp
    · next h =>
      have hm : min ((x :: p).length - 3 * pcap / 4) (scap - s.length) = 0 := by
        simp only [List.length_cons] at *
        omega
      rw [hm]
      simp

/-- The trim loop in closed form: the newest floor(3·SCAP/4) samples stay. -/
theorem trimLoop_eq (scap : Nat) (s : List Sample) : trimLoop scap s = s.drop (s.length - 3 * scap / 4) := by
  induction s with
  | nil => simp [trimLoop]
  | cons x s ih =>
    rw [trimLoop]
    split
    · next h =>
      have hm : (x :: s).length - 3 * scap / 4 = (s.length - 3 * scap / 4) + 1 := by
        simp only [List.length_cons] at *
        omega
      rw [ih, hm, List.drop_succ_cons]
    · next h =>
      have hm : (x :: s).length - 3 * scap / 4 = 0 := by
        simp only [List.length_cons] at *
        omega
      rw [hm, List.drop_zero]

/-- A migration moves samples and loses none: S followed by P stays the same. -/
theorem migrateLoop_append (pcap scap : Nat) (p s : List Sample) :
    (migrateLoop pcap scap p s).2 ++ (migrateLoop pcap scap p s).1 = s ++ p := by
  rw [migrateLoop_eq, List.append_assoc, List.take_append_drop]

theorem migrateLoop_length_fst (pcap scap : Nat) (p s : List Sample) :
    (migrateLoop pcap scap p s).1.length = p.length - min (p.length - 3 * pcap / 4) (scap - s.length) := by
  rw [migrateLoop_eq, List.length_drop]

theorem migrateLoop_length_snd (pcap scap : Nat) (p s : List Sample) :
    (migrateLoop pcap scap p s).2.length = s.length + min (p.length - 3 * pcap / 4) (scap - s.length) := by
  rw [migrateLoop_eq, List.length_append, List.length_take]
  omega

theorem trimLoop_length (scap : Nat) (s : List Sample) : (trimLoop scap s).length = min s.length (3 * scap / 4) := by
  rw [trimLoop_eq, List.length_drop]
  omega

/-! ### The classification -/

/-- The silence test, in the spelling of R122. -/
theorem silent_iff (w : List Sample) :
    silent w = true ↔ (w.length * windowSumSq w : ℤ) - (windowSum w : ℤ) ^ 2 ≤ (w.length : ℤ) ^ 2 := by
  simp [silent, pauseMaxDeviation]

/-- The hook test writes HOOK and OUT as R125, R126 and R127 say, and nothing else. -/
theorem hookTest_eq (st : State) :
    st.hookTest = { st with hook := (hookOutcome st.hook st.p).1, out := st.out ++ (hookOutcome st.hook st.p).2 } := by
  obtain ⟨cfg, run, p, s, hook, err, out, port, host, taken⟩ := st
  cases hook with
  | onHook =>
    by_cases h : windowSum p > 180 * p.length <;>
      simp [State.hookTest, hookOutcome, meanAboveOffHook, offHookThreshold, State.setHook, State.emit, h]
  | offHook =>
    by_cases h : windowSum p < 20 * p.length <;>
      simp [State.hookTest, hookOutcome, meanBelowOnHook, onHookThreshold, State.setHook, State.emit, h]

@[simp] theorem silenceOutcome_nil (h : HookState) : silenceOutcome h [] = (h, []) := rfl

@[simp] theorem silenceOutcome_cons_fst (h : HookState) (w : List Sample) (ws : List (List Sample)) :
    (silenceOutcome h (w :: ws)).1 = (silenceOutcome (hookOutcome h w).1 ws).1 := rfl

@[simp] theorem silenceOutcome_cons_snd (h : HookState) (w : List Sample) (ws : List (List Sample)) :
    (silenceOutcome h (w :: ws)).2 = (hookOutcome h w).2 ++ .pause :: (silenceOutcome (hookOutcome h w).1 ws).2 := rfl

theorem classify_eq (st : State) : st.classify = (silent st.p, st.hookTest) := rfl

/-! ### The ports -/

theorem sReady_iff (st : State) :
    st.sReady = true ↔ st.run = .running ∧ ∀ d, st.cfg.outDepth = some d → st.out.length + 2 ≤ d := by
  unfold State.sReady State.hasRoom
  cases h : st.cfg.outDepth <;> simp

theorem takeHead_of_cons {st : State} {e : Event} {es : List Event} (h : st.out = e :: es) :
    st.takeHead = { st with out := es, taken := st.taken ++ [e] } := by
  rw [State.takeHead, h]

theorem takeHead_of_nil {st : State} (h : st.out = []) : st.takeHead = st := by rw [State.takeHead, h]

theorem serveSample_of_nil {st : State} (h : st.samplePort = []) : st.serveSample = st := by rw [State.serveSample, h]

theorem serveSample_of_not_ready {st : State} (h : st.sReady = false) : st.serveSample = st := by
  rw [State.serveSample]
  split <;> simp [h]

theorem serveSample_of_ready {st : State} {v : Sample} {rest : List Sample} (h : st.samplePort = v :: rest) (hr : st.sReady = true) :
    st.serveSample = st.dropSample.acceptSample v := by
  rw [State.serveSample, h]
  simp [hr]

/-! ### SAMPLE (R109) -/

theorem acceptSample_append {st : State} (v : Sample) (h : st.p.length < st.cfg.pcap) :
    st.acceptSample v = { st with p := st.p ++ [v] } := by
  rw [State.acceptSample, if_pos h]
  rfl

theorem acceptSample_silence {st : State} (v : Sample) (h : ¬ st.p.length < st.cfg.pcap) (hs : silent st.p = true) :
    st.acceptSample v =
      { st with p := [v], s := [], hook := (hookOutcome st.hook st.p).1, out := st.out ++ (hookOutcome st.hook st.p).2 ++ [.pause] } := by
  rw [State.acceptSample, if_neg h, classify_eq, if_pos hs, hookTest_eq]
  rfl

/-- A tone step whose migration leaves S not full. -/
theorem acceptSample_migrate {st : State} (v : Sample) (h : ¬ st.p.length < st.cfg.pcap) (hs : silent st.p = false)
    (hf : (migrateLoop st.cfg.pcap st.cfg.scap st.p st.s).2.length ≠ st.cfg.scap) :
    st.acceptSample v =
      { st with p := (migrateLoop st.cfg.pcap st.cfg.scap st.p st.s).1 ++ [v], s := (migrateLoop st.cfg.pcap st.cfg.scap st.p st.s).2,
                hook := (hookOutcome st.hook st.p).1, out := st.out ++ (hookOutcome st.hook st.p).2 } := by
  rw [State.acceptSample, if_neg h, classify_eq, if_neg (by simp [hs]), hookTest_eq]
  exact congrArg (State.appendSample v) (if_neg hf)

/-- A tone step whose migration fills S. -/
theorem acceptSample_evaluate {st : State} (v : Sample) (h : ¬ st.p.length < st.cfg.pcap) (hs : silent st.p = false)
    (hf : (migrateLoop st.cfg.pcap st.cfg.scap st.p st.s).2.length = st.cfg.scap) :
    st.acceptSample v =
      { st with p := (migrateLoop st.cfg.pcap st.cfg.scap st.p st.s).1 ++ [v],
                s := trimLoop st.cfg.scap (migrateLoop st.cfg.pcap st.cfg.scap st.p st.s).2,
                hook := (hookOutcome st.hook st.p).1,
                out := st.out ++ (hookOutcome st.hook st.p).2 ++
                  [.amps (analyze st.cfg.ampTol (migrateLoop st.cfg.pcap st.cfg.scap st.p st.s).2)] } := by
  rw [State.acceptSample, if_neg h, classify_eq, if_neg (by simp [hs]), hookTest_eq]
  exact congrArg (State.appendSample v) (if_pos hf)

/-- What an accepted sample can do, said once: HOOK follows the hook outcome or stays, and OUT grows by the hook event, if any, and then
by nothing, by PAUSE or by an AMPS; nothing but P, S, HOOK and OUT is written (R100, R109). -/
theorem acceptSample_cases (v : Sample) (st : State) :
    (st.p.length < st.cfg.pcap ∧ st.acceptSample v = { st with p := st.p ++ [v] }) ∨
    (st.cfg.pcap ≤ st.p.length ∧ silent st.p = true ∧
      st.acceptSample v =
        { st with p := [v], s := [], hook := (hookOutcome st.hook st.p).1,
                  out := st.out ++ (hookOutcome st.hook st.p).2 ++ [.pause] }) ∨
    (st.cfg.pcap ≤ st.p.length ∧ silent st.p = false ∧
      ∃ s' last, (s' = (migrateLoop st.cfg.pcap st.cfg.scap st.p st.s).2 ∧ s'.length ≠ st.cfg.scap ∧ last = [] ∨
          s' = trimLoop st.cfg.scap (migrateLoop st.cfg.pcap st.cfg.scap st.p st.s).2 ∧
            (migrateLoop st.cfg.pcap st.cfg.scap st.p st.s).2.length = st.cfg.scap ∧
            last = [.amps (analyze st.cfg.ampTol (migrateLoop st.cfg.pcap st.cfg.scap st.p st.s).2)]) ∧
        st.acceptSample v =
          { st with p := (migrateLoop st.cfg.pcap st.cfg.scap st.p st.s).1 ++ [v], s := s', hook := (hookOutcome st.hook st.p).1,
                    out := st.out ++ (hookOutcome st.hook st.p).2 ++ last }) := by
  by_cases h : st.p.length < st.cfg.pcap
  · exact .inl ⟨h, acceptSample_append v h⟩
  right
  cases hs : silent st.p with
  | true => exact .inl ⟨not_lt.1 h, rfl, acceptSample_silence v h hs⟩
  | false =>
    refine .inr ⟨not_lt.1 h, rfl, ?_⟩
    by_cases hf : (migrateLoop st.cfg.pcap st.cfg.scap st.p st.s).2.length = st.cfg.scap
    · exact ⟨_, _, .inr ⟨rfl, hf, rfl⟩, acceptSample_evaluate v h hs hf⟩
    · exact ⟨_, _, .inl ⟨rfl, hf, rfl⟩, by rw [acceptSample_migrate v h hs hf, List.append_nil]⟩

/-! An accepted sample writes P, S, HOOK and OUT only (R100). -/

@[simp] theorem acceptSample_cfg (v : Sample) (st : State) : (st.acceptSample v).cfg = st.cfg := by
  rcases acceptSample_cases v st with ⟨-, e⟩ | ⟨-, -, e⟩ | ⟨-, -, _, _, -, e⟩ <;> rw [e]

@[simp] theorem acceptSample_run (v : Sample) (st : State) : (st.acceptSample v).run = st.run := by
  rcases acceptSample_cases v st with ⟨-, e⟩ | ⟨-, -, e⟩ | ⟨-, -, _, _, -, e⟩ <;> rw [e]

@[simp] theorem acceptSample_err (v : Sample) (st : State) : (st.acceptSample v).err = st.err := by
  rcases acceptSample_cases v st with ⟨-, e⟩ | ⟨-, -, e⟩ | ⟨-, -, _, _, -, e⟩ <;> rw [e]

@[simp] theorem acceptSample_samplePort (v : Sample) (st : State) : (st.acceptSample v).samplePort = st.samplePort := by
  rcases acceptSample_cases v st with ⟨-, e⟩ | ⟨-, -, e⟩ | ⟨-, -, _, _, -, e⟩ <;> rw [e]

@[simp] theorem acceptSample_host (v : Sample) (st : State) : (st.acceptSample v).host = st.host := by
  rcases acceptSample_cases v st with ⟨-, e⟩ | ⟨-, -, e⟩ | ⟨-, -, _, _, -, e⟩ <;> rw [e]

@[simp] theorem acceptSample_taken (v : Sample) (st : State) : (st.acceptSample v).taken = st.taken := by
  rcases acceptSample_cases v st with ⟨-, e⟩ | ⟨-, -, e⟩ | ⟨-, -, _, _, -, e⟩ <;> rw [e]

/-- The hook outcome of a window: no event and HOOK as it was, or the one transition that can come next, with its event. -/
theorem hookOutcome_cases (h : HookState) (w : List Sample) :
    hookOutcome h w = (h, []) ∨ (h = .onHook ∧ hookOutcome h w = (.offHook, [.offHook])) ∨
      (h = .offHook ∧ hookOutcome h w = (.onHook, [.onHook])) := by
  cases h <;> simp only [hookOutcome] <;> split <;> simp

/-- What the sample port's turn can do: nothing, or the oldest waiting sample is accepted. -/
theorem serveSample_cases (st : State) :
    (st.serveSample = st ∧ (st.samplePort = [] ∨ st.sReady = false)) ∨
      ∃ v rest, st.samplePort = v :: rest ∧ st.sReady = true ∧ st.serveSample = st.dropSample.acceptSample v := by
  cases hp : st.samplePort with
  | nil => exact .inl ⟨serveSample_of_nil hp, .inl rfl⟩
  | cons v rest =>
    cases hr : st.sReady with
    | false => exact .inl ⟨serveSample_of_not_ready hr, .inr rfl⟩
    | true => exact .inr ⟨v, rest, rfl, rfl, serveSample_of_ready hp hr⟩

/-! The sample port's turn writes P, S, HOOK, OUT and the port only. -/

@[simp] theorem serveSample_cfg (st : State) : st.serveSample.cfg = st.cfg := by
  rcases serveSample_cases st with ⟨e, -⟩ | ⟨v, _, -, -, e⟩ <;> simp [e]

@[simp] theorem serveSample_run (st : State) : st.serveSample.run = st.run := by
  rcases serveSample_cases st with ⟨e, -⟩ | ⟨v, _, -, -, e⟩ <;> simp [e]

@[simp] theorem serveSample_err (st : State) : st.serveSample.err = st.err := by
  rcases serveSample_cases st with ⟨e, -⟩ | ⟨v, _, -, -, e⟩ <;> simp [e]

@[simp] theorem serveSample_host (st : State) : st.serveSample.host = st.host := by
  rcases serveSample_cases st with ⟨e, -⟩ | ⟨v, _, -, -, e⟩ <;> simp [e]

@[simp] theorem serveSample_taken (st : State) : st.serveSample.taken = st.taken := by
  rcases serveSample_cases st with ⟨e, -⟩ | ⟨v, _, -, -, e⟩ <;> simp [e]

/-- SAMPLE with nothing waiting, in a block that is ready: the sample is accepted. -/
theorem execSample_of_ready {st : State} (v : Sample) (hp : st.samplePort = []) (hr : st.sReady = true) :
    execSample v st = .next (st.acceptSample v) := by
  have h1 : (st.present v).samplePort = [v] := by simp [hp]
  have h2 : (st.present v).sReady = true := hr
  rw [execSample, serveSample_of_ready h1 h2]
  obtain ⟨cfg, run, p, s, hook, err, out, port, host, taken⟩ := st
  subst hp
  rfl

/-- SAMPLE in a block that is not ready: the sample waits. -/
theorem execSample_of_not_ready {st : State} (v : Sample) (hr : st.sReady = false) :
    execSample v st = .next (st.present v) := by
  have h2 : (st.present v).sReady = false := hr
  rw [execSample, serveSample_of_not_ready h2]

end Sys2Proof.Machine
end

