-- ==== Sys2Proof/Laws/PerInstr.lean ====
section
/-! SUPPORT. One lemma per transaction: it is well formed, and decoding its word gives it back (spec/30_encoding.md R62, R63, R64). -/

namespace Sys2Proof.Laws.RoundTrip

/-- The transaction is well formed and its word decodes to it. -/
def Statement (i : Instr) : Prop := i.wellFormed = true ∧ decode (encode i) = i

theorem sample (v : Sample) : Statement (.sample v) := by
  simp [Statement, Instr.wellFormed, decode, encode]

theorem start : Statement .start := by
  simp [Statement, Instr.wellFormed, decode, encode]

theorem stop : Statement .stop := by
  simp [Statement, Instr.wellFormed, decode, encode]

theorem rsvd : Statement .rsvd := by
  simp [Statement, Instr.wellFormed, decode, encode]

end Sys2Proof.Laws.RoundTrip
end

