-- ==== Sys2Proof/Laws/Step.lean ====
section
/-! SUPPORT. What one transaction, one step and a run can do, each said once. -/

namespace Sys2Proof.Machine

/-- What a transaction can answer. -/
theorem exec_cases {i : Instr} {st t : State} (h : exec i st = .next t) :
    (∃ v, i = .sample v ∧ t = (st.present v).serveSample) ∨
    (i = .start ∧ (st.run = .stopped ∧ t = (st.setRun .running).clearWindows ∨ st.run = .running ∧ t = st)) ∨
    (i = .stop ∧ (st.run = .running ∧ t = (st.setRun .stopped).clearWindows.clearOut ∨ st.run = .stopped ∧ t = st)) ∨
    (i = .rsvd ∧ t = st.setErr) := by
  cases i with
  | sample v =>
    simp only [exec, execSample, Host.Outcome.next.injEq] at h
    exact .inl ⟨v, rfl, h.symm⟩
  | start =>
    cases hr : st.run <;> simp only [exec, execStart, hr, Host.Outcome.next.injEq] at h <;> simp [h]
  | stop =>
    cases hr : st.run <;> simp only [exec, execStop, hr, Host.Outcome.next.injEq] at h <;> simp [h]
  | rsvd =>
    simp only [exec, execRsvd, Host.Outcome.next.injEq] at h
    simp [h]

theorem nextMove_of_nil {st : State} (h : st.host = []) : st.nextMove = (.sampleTurn, st.dropMove) := by rw [State.nextMove, h]

theorem nextMove_of_cons {st : State} {m : HostMove} {rest : List HostMove} (h : st.host = m :: rest) :
    st.nextMove = (m, st.dropMove) := by rw [State.nextMove, h]

theorem step_of_legal {st : State} (h : st.cfg.legal = true) : step st = runMove st.nextMove.1 st.nextMove.2 := by
  rw [step, if_pos h]

/-- What a step can do, said once: the host's next move names a transaction, a transfer at the event port, a reset, or leaves the
boundary to a waiting sample. -/
theorem step_cases {st t : State} (h : step st = .next t) :
    st.cfg.legal = true ∧
      ((∃ m i, st.host.head? = some m ∧ m.instr = some i ∧ exec i st.dropMove = .next t) ∨
        (st.host.head? = some .take ∧ t = st.dropMove.takeHead) ∨
        (st.host.head? = some .rst ∧ t = st.dropMove.applyReset) ∨
        ((st.host = [] ∨ st.host.head? = some .sampleTurn) ∧ t = st.dropMove.serveSample)) := by
  have hl : st.cfg.legal = true := by
    by_contra hn
    rw [step, if_neg hn] at h
    cases h
  refine ⟨hl, ?_⟩
  rw [step_of_legal hl] at h
  cases hh : st.host with
  | nil =>
    rw [nextMove_of_nil hh] at h
    simp only [runMove, Host.Outcome.next.injEq] at h
    exact .inr (.inr (.inr ⟨.inl rfl, h.symm⟩))
  | cons m rest =>
    rw [nextMove_of_cons hh] at h
    cases m with
    | word w => exact .inl ⟨_, _, rfl, rfl, h⟩
    | control c => exact .inl ⟨_, _, rfl, rfl, h⟩
    | take =>
      simp only [runMove, Host.Outcome.next.injEq] at h
      exact .inr (.inl ⟨rfl, h.symm⟩)
    | rst =>
      simp only [runMove, Host.Outcome.next.injEq] at h
      exact .inr (.inr (.inl ⟨rfl, h.symm⟩))
    | sampleTurn =>
      simp only [runMove, Host.Outcome.next.injEq] at h
      exact .inr (.inr (.inr ⟨.inr rfl, h.symm⟩))

/-- What a step does, from the host's next move and nothing else: it always answers in a legal configuration. -/
theorem step_of_cons {st : State} {m : HostMove} {rest : List HostMove} (hl : st.cfg.legal = true) (h : st.host = m :: rest) :
    step st = runMove m st.dropMove := by
  rw [step_of_legal hl, nextMove_of_cons h]

theorem step_of_nil {st : State} (hl : st.cfg.legal = true) (h : st.host = []) : step st = .next st.dropMove.serveSample := by
  rw [step_of_legal hl, nextMove_of_nil h]
  rfl

/-! ### Runs -/

theorem coreRun_of_next (M : Host.Core) (n : Nat) {s t : M.State} (h : M.step s = .next t) : M.run (n + 1) s = M.run n t := by
  rw [Host.Core.run, h]

theorem coreRun_of_refused (M : Host.Core) (n : Nat) {s : M.State} {r : M.Refusal} (h : M.step s = .refused r) :
    M.run (n + 1) s = .refused r := by
  rw [Host.Core.run, h]

/-- `runSteps` is the host's run of the machine. -/
theorem core_run_eq (n : Nat) (st : State) : Host.Core.run Sys2Proof.core n st = runSteps n st := by
  induction n generalizing st with
  | zero => rfl
  | succ n ih =>
    cases h : step st with
    | next u =>
      rw [runSteps, h]
      exact (coreRun_of_next Sys2Proof.core n h).trans (ih u)
    | fault r => exact nomatch r
    | refused r =>
      rw [runSteps, h]
      exact coreRun_of_refused Sys2Proof.core n h

theorem runSteps_zero (st : State) : runSteps 0 st = .next st := rfl

theorem runSteps_succ_of_next {st u : State} (n : Nat) (h : step st = .next u) : runSteps (n + 1) st = runSteps n u := by
  rw [runSteps, h]

/-- A run of one step more answers a next state only through one. -/
theorem runSteps_succ_cases {st t : State} {n : Nat} (h : runSteps (n + 1) st = .next t) :
    ∃ u, step st = .next u ∧ runSteps n u = .next t := by
  cases hs : step st with
  | next u => exact ⟨u, rfl, by rw [← runSteps_succ_of_next n hs]; exact h⟩
  | fault r => exact nomatch r
  | refused r =>
    rw [runSteps, hs] at h
    cases h

/-- A property that every step keeps holds after every run. -/
theorem runSteps_keeps {Q : State → Prop} (hstep : ∀ st t, Q st → step st = .next t → Q t) :
    ∀ (n : Nat) (st t : State), Q st → runSteps n st = .next t → Q t := by
  intro n
  induction n with
  | zero =>
    intro st t hq h
    rw [runSteps_zero, Host.Outcome.next.injEq] at h
    exact h ▸ hq
  | succ n ih =>
    intro st t hq h
    obtain ⟨u, hu, ht⟩ := runSteps_succ_cases h
    exact ih u t (hstep st u hq hu) ht

/-- A run of `m + n` steps is a run of `m` and then one of `n`. -/
theorem runSteps_add (m n : Nat) {st u : State} (h : runSteps m st = .next u) : runSteps (m + n) st = runSteps n u := by
  induction m generalizing st with
  | zero =>
    rw [runSteps_zero, Host.Outcome.next.injEq] at h
    rw [Nat.zero_add, h]
  | succ m ih =>
    obtain ⟨v, hv, hu⟩ := runSteps_succ_cases h
    rw [Nat.add_right_comm, runSteps_succ_of_next _ hv, ih hu]

end Sys2Proof.Machine
end

