-- ==== Sys2Proof/Tests/Slice0.lean ====
section
/-! SUPPORT. The model's own tests. Expected results are those of the spec: words written out from spec/30_encoding.md, the vectors of
spec/95_test_vectors.md and the worked examples of the rules. Then, for every statement with hypotheses, a witness that meets them. -/

open Sys2Proof Sys2Proof.Machine

namespace Sys2Proof.Tests

/-! ### Helpers -/

/-- PCAP = 4, SCAP = 8, OUT_DEPTH = ∞: the configuration of the vectors (R12). -/
def config4 : Config := ⟨4, 8, none, .ratio 1 1000000⟩

/-- A running block in that configuration with the given windows. -/
def running (p s : List Sample) : State := { State.resetWith config4 with run := .running, p := p, s := s }

/-- The outcome is a next state with the given property. -/
def gives (o : Host.Outcome State Fault Refusal) (q : State → Bool) : Bool :=
  match o with
  | .next t => q t
  | .fault _ => false
  | .refused _ => false

/-! ### Well-formedness: each check refuses an ill-formed term -/

theorem test_wf_pcap_zero : Config.legal ⟨0, 8, none, .ratio 1 1000000⟩ = false := by decide
theorem test_wf_pcap_65536 : Config.legal ⟨65536, 8, none, .ratio 1 1000000⟩ = false := by decide
theorem test_wf_scap_zero : Config.legal ⟨4, 0, none, .ratio 1 1000000⟩ = false := by decide
theorem test_wf_scap_65536 : Config.legal ⟨4, 65536, none, .ratio 1 1000000⟩ = false := by decide
theorem test_wf_depth_one : Config.legal ⟨4, 8, some 1, .ratio 1 1000000⟩ = false := by decide
theorem test_wf_tolerance_zero : Config.legal ⟨4, 8, none, .ratio 0 1⟩ = false := by decide
theorem test_wf_tolerance_denominator : Config.legal ⟨4, 8, none, .ratio 1 0⟩ = false := by decide
theorem test_wf_tolerance_real : Config.legal ⟨4, 8, none, .real 7⟩ = true := by decide
theorem test_wf_limits : Config.legal ⟨1, 65535, some 2, .ratio 1 1000000⟩ = true := by decide
theorem test_wf_every_sample : Instr.wellFormed (.sample 255#8) = true := by decide
theorem test_step_refuses_illegal : step { State.reset with cfg := ⟨0, 8, none, .ratio 1 1⟩ } = .refused .illegalConfiguration := rfl

/-! ### Decoding: V-EN-1 to V-EN-9, the words bit by bit from R61 -/

theorem test_decode_sample_171 : decode 0b00_10101011#10 = .sample 171#8 := by decide
theorem test_decode_sample_255 : decode 0b00_11111111#10 = .sample 255#8 := by decide
theorem test_decode_start : decode 0b01_00000000#10 = .start := by decide
theorem test_decode_start_data_ignored : decode 0b01_11111111#10 = .start := by decide
theorem test_decode_stop : decode 0b10_00000000#10 = .stop := by decide
theorem test_decode_stop_data_ignored : decode 0b10_11000011#10 = .stop := by decide
theorem test_decode_rsvd : decode 0b11_00000000#10 = .rsvd := by decide
theorem test_decode_rsvd_data_ignored : decode 0b11_10100101#10 = .rsvd := by decide
theorem test_control_code_zero_reserved : decodeControl 0b00#2 = .rsvd := by decide
theorem test_port_fields : portTransfer 0b00_10101011#10 = .sample 0xAB#8 ∧ portTransfer 0b01_11111111#10 = .control 0b01#2 := by decide
theorem test_decode_too_wide : decodeNat 1024 = .error .tooWide := rfl
theorem test_split_leftover : decodeProgram (List.replicate 13 false) = .error (.leftover 3) := by rfl
theorem test_split_two_words :
    decodeProgram [false, true, false, false, false, false, false, false, false, false, false, false, false, false, false, false, false,
      true, true, true] = .ok [.start, .sample 7#8] := by rfl
theorem test_table_word : decodeTableWord 16 0x1FF = some .start ∧ decodeTableWord 10 0x0AB = some (.sample 171#8) := by decide

/-! ### One step of each transaction -/

/-- V-WM-1. -/
theorem test_sample_append :
    gives (exec (.sample 17) (running [] [])) (fun t => t.p == [17] && t.s == [] && t.out == [] && t.status == 0x0000000000010001#64) = true := by
  decide

/-- V-WM-5: the eighth sample moves, S is evaluated and trimmed to [200,0,200,0,200,0]. -/
theorem test_sample_evaluates :
    gives (exec (.sample 0) (running [0, 200, 0, 200] [200, 0, 200, 0, 200, 0, 200]))
      (fun t => t.p == [200, 0, 200, 0] && t.s == [200, 0, 200, 0, 200, 0] && t.out.map Event.eType == [0b00#2] &&
        t.status == 0x0000000600040001#64) = true := by
  decide

/-- V-CT-8. -/
theorem test_start_keeps_hook_and_err :
    gives (exec .start { State.resetWith config4 with hook := .offHook, err := true }) (fun t => t.status == 7#64) = true := by decide

/-- V-CT-3. -/
theorem test_start_running_noop : exec .start (running [9, 9] []) = .next (running [9, 9] []) := rfl

/-- V-CT-5. -/
theorem test_stop_discards :
    gives (exec .stop { running [200] [] with hook := .offHook, out := [.offHook, .pause] })
      (fun t => t.out == [] && t.p == [] && t.status == 2#64) = true := by decide

/-- V-CT-4. -/
theorem test_stop_stopped_noop : exec .stop (State.resetWith config4) = .next (State.resetWith config4) := rfl

/-- V-CT-7a. -/
theorem test_rsvd_sets_err : gives (exec .rsvd State.reset) (fun t => t.status == 4#64) = true := by decide

/-- V-CT-7b: the code 0b00 driven on the control port. -/
theorem test_control_zero_sets_err :
    gives (step { running [1] [] with host := [.control 0b00#2] }) (fun t => t.p == [1] && t.status == 0x0000000000010005#64) = true := by
  decide

/-! ### The classification: V-PH-1, V-PH-2, V-PH-4, V-PH-5, V-PH-6a, V-PH-6b, V-PH-8 -/

theorem test_silent_at_one : silent [100, 102, 100, 102] = true := by decide
theorem test_tone_above_one : silent [100, 102, 100, 103] = false := by decide
theorem test_hook_180_stays : meanAboveOffHook [180, 180, 180, 180] = false ∧ meanAboveOffHook [181, 181, 181, 181] = true := by decide
theorem test_hook_20_stays : meanBelowOnHook [20, 20, 20, 20] = false ∧ meanBelowOnHook [19, 19, 19, 19] = true := by decide
theorem test_tone_moves_hook :
    gives (exec (.sample 0) (running [255, 255, 255, 100] []))
      (fun t => t.out == [.offHook] && t.s == [255] && t.p == [255, 255, 100, 0] && t.status == 0x0000000100040003#64) = true := by decide

/-! ### Ports, reset, program text -/

theorem test_event_port_pause : { running [] [] with out := [.pause, .onHook] }.eventPort = some (0b01#2, Vector.replicate 8 0#64) := by decide
theorem test_reset_status : State.reset.status = 0#64 := by decide
theorem test_fetch_word_runs :
    gives (step (State.reset.withFetchWord 10 0x100)) (fun t => t.run == .running) = true ∧
      gives (step (State.reset.withFetchWord 16 0x02A)) (fun t => t.samplePort == [42]) = true := by decide

/-- R71, R72: `.config PCAP=4, SCAP=8, OUT_DEPTH=inf` and `Sample 0xAb ; x`. -/
theorem test_parse_lines :
    parseLine ['.', 'c', 'o', 'n', 'f', 'i', 'g', ' ', 'P', 'C', 'A', 'P', '=', '4', ',', ' ', 'S', 'C', 'A', 'P', '=', '8', ',', ' ', 'O', 'U',
      'T', '_', 'D', 'E', 'P', 'T', 'H', '=', 'i', 'n', 'f'] = .ok (some (.config 4 8 none)) ∧
    parseLine ['S', 'a', 'm', 'p', 'l', 'e', ' ', '0', 'x', 'A', 'b', ' ', ';', ' ', 'x'] = .ok (some (.sample 0xAB#8)) := by
  constructor <;> rfl

/-! ### Binary64 (R69): 1.0, 100.0 and the infinity -/

theorem test_binary64_one : F64.magnitude 0x3FF0000000000000#64 = 1 := by
  simp [F64.magnitude, F64.exponentField, F64.fraction]
  norm_num

theorem test_binary64_infinity : F64.isFinite 0x7FF0000000000000#64 = false ∧ F64.signBit 0x8000000000000000#64 = 1#1 := by decide

/-! ### Witnesses: for every statement with hypotheses, values that meet them, clause by clause -/

/-- The invariants of a state, as a check. -/
def invCheck (st : State) : Bool :=
  st.cfg.legal && decide (st.p.length ≤ st.cfg.pcap) && decide (st.s.length < st.cfg.scap) &&
    (st.run == .running || (st.p.isEmpty && st.s.isEmpty && st.out.isEmpty)) &&
    (match st.cfg.outDepth with
      | none => true
      | some d => decide (st.out.length ≤ d)) &&
    st.out.all Event.legal

theorem inv_of_check {st : State} (h : invCheck st = true) : st.Inv := by
  simp only [invCheck, Bool.and_eq_true, Bool.or_eq_true, decide_eq_true_eq, beq_iff_eq, List.isEmpty_iff, List.all_eq_true] at h
  obtain ⟨⟨⟨⟨⟨h1, h2⟩, h3⟩, h4⟩, h5⟩, h6⟩ := h
  refine ⟨h1, h2, h3, fun hr => ?_, fun d hd => ?_, h6⟩
  · rcases h4 with h4 | ⟨⟨a, b⟩, c⟩
    · rw [hr] at h4; exact absurd h4 (by decide)
    · exact ⟨a, b, c⟩
  · rw [hd] at h5; exact of_decide_eq_true h5

/-- A block with a finite event FIFO of depth 4 that holds three events, P one short of full. -/
def bounded : State :=
  { State.resetWith { config4 with outDepth := some 4 } with run := .running, p := [1, 2, 3], s := [9], out := [.pause, .offHook, .onHook] }

/-- The first `n` samples of the tone 0, 255, 0, 255, … -/
def alternating (n : Nat) : List Sample := (List.range n).map fun i => if i % 2 = 0 then 0#8 else 255#8

/-- The reference block, running, about to be given 340 samples of the tone. -/
def referenceTone : State := { State.reset with run := .running, host := sampleMoves (alternating 340) }

/-- An irrational SAMPLE_RATE, 1000·√2: its capacities are round(9.899…) = 10 and round(42.426…) = 42. -/
theorem witness_CapacitiesAreRounded :
    elaborate (1000 * Real.sqrt 2) none (.ratio 1 1000000) = some ⟨10, 42, none, .ratio 1 1000000⟩ := by
  have h1 : (1.414 : ℝ) < Real.sqrt 2 := Real.lt_sqrt_of_sq_lt (by norm_num)
  have h2 : Real.sqrt 2 < 1.415 := (Real.sqrt_lt' (by norm_num)).2 (by norm_num)
  have hp : capacityOf (1000 * Real.sqrt 2) pauseWindowMillis = 10 := by
    rw [capacityOf, pauseWindowMillis, Nat.floor_eq_iff (by positivity)]
    constructor <;> norm_num at * <;> linarith
  have hs : capacityOf (1000 * Real.sqrt 2) symbolWindowMillis = 42 := by
    rw [capacityOf, symbolWindowMillis, Nat.floor_eq_iff (by positivity)]
    constructor <;> norm_num at * <;> linarith
  rw [elaborate, hp, hs]
  decide

/-- The computation at rational rates: the reference rate, and one at a tie, 500 × 0.007 = 3.5, which goes up to 4. -/
theorem test_elaborateRatio :
    elaborateRatio ⟨961538, 100⟩ none (.ratio 1 1000000) = some Config.reference ∧
      elaborateRatio ⟨500, 1⟩ (some 2) (.ratio 1 1000000) = some ⟨4, 15, some 2, .ratio 1 1000000⟩ := by decide

theorem witness_StatusShowsState : bounded.Inv ∧ State.reset.Inv := ⟨inv_of_check (by decide), inv_of_check (by decide)⟩

theorem witness_StepKeepsInvariant : ∃ t, bounded.Inv ∧ step { bounded with host := [.take] } = .next t ∧ t.out = [.offHook, .onHook] :=
  ⟨_, inv_of_check (by decide), rfl, rfl⟩

theorem witness_ResetMeetsInvariant : Config.reference.legal = true ∧ Config.legal ⟨1, 1, some 2, .ratio 1 1⟩ = true := by decide

theorem witness_RunChangesOnlyByControl_start :
    ∃ t, step { State.reset with host := [.word 0x100#10] } = .next t ∧ t.run ≠ State.reset.run := ⟨_, rfl, by decide⟩

theorem witness_RunChangesOnlyByControl_stop :
    ∃ t, step { bounded with host := [.control 0b10#2] } = .next t ∧ t.run ≠ bounded.run := ⟨_, rfl, by decide⟩

theorem witness_RunChangesOnlyByControl_rst : ∃ t, step { bounded with host := [.rst] } = .next t ∧ t.run ≠ bounded.run :=
  ⟨_, rfl, by decide⟩

theorem witness_HookChangesOnlyByClassification_off :
    ∃ t, ({ running [181, 181, 181, 181] [] with host := [.word 0#10] } : State).Inv ∧
      step { running [181, 181, 181, 181] [] with host := [.word 0#10] } = .next t ∧ t.hook ≠ .onHook :=
  ⟨_, inv_of_check (by decide), rfl, by decide⟩

theorem witness_HookChangesOnlyByClassification_on :
    ∃ t, ({ running [19, 19, 19, 19] [] with hook := .offHook, samplePort := [7] } : State).Inv ∧
      step { running [19, 19, 19, 19] [] with hook := .offHook, samplePort := [7] } = .next t ∧ t.hook ≠ .offHook :=
  ⟨_, inv_of_check (by decide), rfl, by decide⟩

/-- The sample port's turn, with a sample waiting. -/
theorem witness_HookChangesOnlyByClassification_turn :
    ∃ t, ({ running [181, 181, 181, 181] [] with samplePort := [7], host := [.sampleTurn] } : State).Inv ∧
      step { running [181, 181, 181, 181] [] with samplePort := [7], host := [.sampleTurn] } = .next t ∧ t.hook ≠ .onHook :=
  ⟨_, inv_of_check (by decide), rfl, by decide⟩

theorem witness_HookChangesOnlyByClassification_rst :
    ∃ t, step { bounded with hook := .offHook, host := [.rst] } = .next t ∧ t.hook ≠ .offHook := ⟨_, rfl, by decide⟩

theorem witness_ErrIsSticky_set : ∃ t, step { bounded with host := [.word 0x3A5#10] } = .next t ∧ t.err ≠ bounded.err :=
  ⟨_, rfl, by decide⟩

theorem witness_ErrIsSticky_clear : ∃ t, step { bounded with err := true, host := [.rst] } = .next t ∧ t.err ≠ true :=
  ⟨_, rfl, by decide⟩

theorem witness_ErrHasNoEffect : ∃ t, step { bounded with err := true, host := [.take] } = .next t ∧ t.err = true := ⟨_, rfl, rfl⟩

theorem witness_EventsAreFifo_take :
    ∃ t, step { bounded with host := [.take] } = .next t ∧ t.taken = [.pause] ∧ t.out = [.offHook, .onHook] := ⟨_, rfl, rfl, rfl⟩

theorem witness_EventsAreFifo_stop : ∃ t, step { bounded with host := [.word 0x200#10] } = .next t ∧ t.out = [] := ⟨_, rfl, rfl⟩

theorem witness_SamplesInArrivalOrder :
    ∃ t, ({ running [] [] with samplePort := [5, 6] } : State).samplePort = 5 :: [6] ∧
      ({ running [] [] with samplePort := [5, 6] } : State).sReady = true ∧
      exec (.sample 5) { running [] [] with samplePort := [] } = .next t ∧ t.p = [5] := ⟨_, rfl, by decide, rfl, rfl⟩

/-- The port's own turn: ready with samples waiting, by no move and by the move that says so; not ready; and nothing waiting. -/
theorem witness_SamplesInArrivalOrder_turn :
    config4.legal = true ∧ ({ running [] [] with samplePort := [5, 6] } : State).host = [] ∧
      ({ running [] [] with samplePort := [5, 6], host := [.sampleTurn, .rst] } : State).host.head? = some .sampleTurn ∧
      ({ running [] [] with samplePort := [5, 6], host := [.sampleTurn, .rst] } : State).sReady = true ∧
      bounded.cfg.legal = true ∧ bounded.host = [] ∧ bounded.sReady = false ∧ State.reset.cfg.legal = true ∧
      State.reset.samplePort = [] ∧ State.reset.host = [] := by decide

/-- The oldest waiting sample is accepted at the port's turn, and not dropped. -/
theorem test_sample_turn_accepts :
    gives (step { running [1] [] with samplePort := [5, 6], host := [.sampleTurn, .rst] })
      (fun t => t.p == [1, 5] && t.samplePort == [6] && t.host == [.rst]) = true := by decide

/-- A reset block whose host presents a sample, a STOP and a take, and never a START. -/
theorem witness_StoppedBlockWaitsForStart :
    ∃ t, (∀ m ∈ [HostMove.word 0x02A#10, .word 0x200#10, .take, .rst, .sampleTurn], m.instr ≠ some .start) ∧
      runSteps 5 { State.reset with host := [.word 0x02A#10, .word 0x200#10, .take, .rst, .sampleTurn] } = .next t ∧
      t.samplePort = [42] := ⟨_, by decide, rfl, rfl⟩

theorem witness_StepRunsDecodedWord :
    bounded.cfg.legal = true ∧ ({ bounded with host := [.word 0x0AB#10, .take] } : State).host = .word 0x0AB#10 :: [.take] := ⟨by decide, rfl⟩

theorem witness_SampleWordCarriesSample : (0x0FF#10).extractLsb' 8 2 = 0b00#2 := by decide

theorem witness_ControlWordIgnoresData : (0x1FF#10).extractLsb' 8 2 = 0b01#2 ∧ (0x2C3#10).extractLsb' 8 2 = 0b10#2 := by decide

theorem witness_ReservedCodesSetErr : (0x3A5#10).extractLsb' 8 2 = 0b11#2 := by decide

theorem witness_DecodeEncodeAgree : Instr.wellFormed (.sample 0#8) = true ∧ Instr.wellFormed .rsvd = true := by decide

theorem witness_ProgramSplitsEveryTenBits :
    (List.replicate 10 true).length % 10 = 0 ∧ (List.replicate 11 true).length % 10 ≠ 0 ∧ ([] : List Bool).length % 10 = 0 := by decide

theorem witness_EventPortShowsHead (lanes : Vector F64 8) :
    ({ running [] [] with out := [.amps lanes] } : State).out = .amps lanes :: [] ∧ bounded.out = .pause :: [.offHook, .onHook] ∧
      bounded.takeHead.out = .offHook :: [.onHook] ∧ bounded.takeHead.takeHead.out = .onHook :: [] := ⟨rfl, rfl, rfl, rfl⟩

theorem witness_ConsumerTakesHead :
    bounded.cfg.legal = true ∧ ({ bounded with host := [.take] } : State).host = .take :: [] ∧
      bounded.out = .pause :: [.offHook, .onHook] ∧ State.reset.cfg.legal = true ∧ State.reset.out = [] := by decide

theorem witness_SampleHeldUnlessReady :
    State.reset.sReady = false ∧ bounded.sReady = false ∧ State.reset.Inv ∧ State.reset.run = .stopped ∧ bounded.run = .running ∧
      bounded.cfg.outDepth = some 4 ∧ 0 < bounded.out.length ∧ bounded.out.length + 1 ≤ 4 :=
  ⟨by decide, by decide, inv_of_check (by decide), rfl, rfl, rfl, by decide, by decide⟩

theorem witness_SampleAppendsWhenNotFull :
    (running [1, 2, 3] []).sReady = true ∧ (running [1, 2, 3] []).samplePort = [] ∧
      (running [1, 2, 3] []).p.length < (running [1, 2, 3] []).cfg.pcap := by decide

/-- V-PH-1: n·Q − Σ² = 16 = n². -/
theorem witness_SampleFullSilence :
    (running [100, 102, 100, 102] []).sReady = true ∧ (running [100, 102, 100, 102] []).samplePort = [] ∧
      (running [100, 102, 100, 102] []).p.length = config4.pcap ∧
      (4 * windowSumSq [100, 102, 100, 102] : ℤ) - (windowSum [100, 102, 100, 102] : ℤ) ^ 2 ≤ (4 : ℤ) ^ 2 := by decide

/-- V-PH-2: n·Q − Σ² = 27 > n²; S has room for one more sample than moves. -/
theorem witness_SampleFullToneMigrates :
    (running [100, 102, 100, 103] [1, 2, 3, 4, 5, 6]).sReady = true ∧
      (running [100, 102, 100, 103] [1, 2, 3, 4, 5, 6]).p.length = config4.pcap ∧
      ¬ (4 * windowSumSq [100, 102, 100, 103] : ℤ) - (windowSum [100, 102, 100, 103] : ℤ) ^ 2 ≤ (4 : ℤ) ^ 2 ∧
      6 + migrationCount (running [100, 102, 100, 103] [1, 2, 3, 4, 5, 6]) < config4.scap := by decide

theorem witness_SampleFullToneEvaluates :
    (running [100, 102, 100, 103] [1, 2, 3, 4, 5, 6, 7]).sReady = true ∧
      (running [100, 102, 100, 103] [1, 2, 3, 4, 5, 6, 7]).p.length = config4.pcap ∧
      ¬ (4 * windowSumSq [100, 102, 100, 103] : ℤ) - (windowSum [100, 102, 100, 103] : ℤ) ^ 2 ≤ (4 : ℤ) ^ 2 ∧
      7 + migrationCount (running [100, 102, 100, 103] [1, 2, 3, 4, 5, 6, 7]) = config4.scap := by decide

theorem witness_AcceptedSampleIsKept :
    (running [0, 200, 0, 200] [200, 0, 200, 0, 200, 0, 200]).sReady = true ∧
      (running [0, 200, 0, 200] [200, 0, 200, 0, 200, 0, 200]).samplePort = [] := by decide

theorem witness_FirstClassificationAfterPcap :
    config4.legal = true ∧ (running [] []).sReady = true ∧ (running [] []).p = [] ∧ [1#8, 2, 3, 4].length = config4.pcap ∧
      ({ running [] [] with host := sampleMoves [1, 2, 3, 4, 5] } : State).host = sampleMoves ([1, 2, 3, 4] ++ [5]) ∧
      silent [1, 2, 3, 4] = false ∧ silent [1, 2, 3, 3] = true := by decide

/-- No block and one sample more; and three silent blocks that are not constant or move HOOK, with PCAP samples more. -/
theorem witness_SilenceCadence :
    config4.legal = true ∧ config4.outDepth = none ∧ (running [] []).run = .running ∧ (running [] []).samplePort = [] ∧
      (running [] []).p = [] ∧
      (∀ b ∈ ([[100, 102, 100, 102], [255, 255, 254, 255], [0, 1, 0, 0]] : List (List Sample)),
        b.length = config4.pcap ∧ silent b = true) ∧
      1 ≤ [7#8].length ∧ [7#8, 200, 0, 9].length ≤ config4.pcap ∧
      silenceOutcome .onHook [[100, 102, 100, 102], [255, 255, 254, 255], [0, 1, 0, 0]] =
        (.onHook, [.pause, .offHook, .pause, .onHook, .pause]) := by decide

theorem witness_ReferenceFirstAmpsAtSample340 :
    referenceTone.cfg.legal = true ∧ referenceTone.cfg.pcap = 67 ∧ referenceTone.cfg.scap = 288 ∧ referenceTone.cfg.outDepth = none ∧
      referenceTone.run = .running ∧ referenceTone.samplePort = [] ∧ referenceTone.p = [] ∧ referenceTone.s = [] ∧
      referenceTone.out = [] ∧ (alternating 340).length = 340 ∧ referenceTone.host = sampleMoves (alternating 340) ∧
      ∀ i, i + 67 ≤ 340 → silent (((alternating 340).drop i).take 67) = false := by
  refine ⟨by decide, rfl, rfl, rfl, rfl, rfl, rfl, rfl, rfl, by simp [alternating], rfl, ?_⟩
  have h : ∀ i < 274, silent (((alternating 340).drop i).take 67) = false := by decide +kernel
  exact fun i hi => h i (by omega)

theorem witness_PcapOneNeverEvaluates :
    ({ State.resetWith { config4 with pcap := 1 } with run := .running, p := [3] } : State).sReady = true ∧
      ({ config4 with pcap := 1 } : Config).pcap = 1 := by decide

theorem witness_SilentIffDeviationAtMostOne : ([100, 102, 100, 102] : List Sample) ≠ [] ∧ ([7] : List Sample) ≠ [] := by decide

theorem witness_ClassificationFitsWidths : (List.replicate 65535 255#8).length ≤ 65535 := by rw [List.length_replicate]

/-- The means 180 and 20, which move nothing, and 181 and 19, which move HOOK. -/
theorem witness_HookHysteresis :
    (running [180, 180, 180, 180] []).sReady = true ∧ (running [180, 180, 180, 180] []).p.length = config4.pcap ∧ 0 < config4.pcap ∧
      ¬ (windowSum [180, 180, 180, 180] : ℝ) / ([180, 180, 180, 180] : List Sample).length > 180 ∧
      (windowSum [181, 181, 181, 181] : ℝ) / ([181, 181, 181, 181] : List Sample).length > 180 ∧
      20 ≤ (windowSum [20, 20, 20, 20] : ℝ) / ([20, 20, 20, 20] : List Sample).length ∧
      (windowSum [19, 19, 19, 19] : ℝ) / ([19, 19, 19, 19] : List Sample).length < 20 := by
  refine ⟨by decide, by decide, by decide, ?_⟩
  rw [show windowSum [180, 180, 180, 180] = 720 from rfl, show windowSum [181, 181, 181, 181] = 724 from rfl,
    show windowSum [20, 20, 20, 20] = 80 from rfl, show windowSum [19, 19, 19, 19] = 76 from rfl]
  norm_num

/-- A START, then samples that take the handset off and on again: the hook events are OFF_HOOK and ON_HOOK. -/
theorem witness_HookEventsAlternate :
    (∀ m ∈ (HostMove.word 0x100#10 :: sampleMoves ([255, 255, 255, 255, 0, 0, 0, 0, 9] : List Sample)),
        m.instr ≠ some .stop ∧ m ≠ .rst) ∧
      gives (runSteps 10 { State.resetWith config4 with
          host := HostMove.word 0x100#10 :: sampleMoves [255, 255, 255, 255, 0, 0, 0, 0, 9] })
        (fun t => t.out == [.offHook, .pause, .onHook, .pause]) = true := by decide

/-- The reference AMP_TOL is at least 2^-46, and so is 2^-46 itself. -/
theorem witness_LanesWithinTolerance :
    (1 : ℝ) / 2 ^ 46 ≤ (Tolerance.ratio 1 1000000).value ∧ (1 : ℝ) / 2 ^ 46 ≤ (Tolerance.ratio 1 (2 ^ 46)).value := by
  simp only [Tolerance.value]
  norm_num

/-- A window of zeros, an AMP_TOL below 2^-46, a real one, and a binary64 within it: +0.0. -/
theorem witness_LanesWithinTolerance_zero :
    (∀ x ∈ List.replicate 288 0#8, x = 0#8) ∧ 0 < (Tolerance.real 3).value ∧ 0 < (Tolerance.ratio 1 (2 ^ 50)).value ∧
      ∃ b : F64, b.isFinite = true ∧ b.signBit = 0#1 ∧ |(b.magnitude : ℝ) - 0| ≤ (Tolerance.real 3).value :=
  have h : 0 < (Tolerance.real 3).value := (Config.realTolerance 3).2
  ⟨fun x hx => List.eq_of_mem_replicate hx, h, by simp [Tolerance.value], 0#64, by decide, by decide, by
    simpa [F64.magnitude, F64.exponentField, F64.fraction] using h.le⟩

theorem witness_AmplitudeRotationReversal : ∃ A, IsExactAmplitude 21 [1, 2, 3, 4, 5, 6, 7, 8] A := ⟨_, rfl⟩

/-- N = 288 divides no bin number; N = 21 divides bin 21, where DC rejection does not hold. -/
theorem witness_DcRejection : ¬ 288 ∣ 21 ∧ ¬ 8 ∣ 49 := by decide

theorem witness_MeanWhenLengthDividesBin : (List.replicate 8 5#8).length ∣ 40 ∧ [9#8].length ∣ 21 := by decide

/-- With N = 8, bins 28 and 36 are equal and bins 23 and 49 opposite. -/
theorem witness_AliasedBinsAgree :
    28 % 8 = 36 % 8 ∧ (23 + 49) % 8 = 0 ∧ ([1, 2, 3, 4, 5, 6, 7, 8] : List Sample).length = 8 ∧
      ∃ A, IsExactAmplitude 28 [1, 2, 3, 4, 5, 6, 7, 8] A := ⟨by decide, by decide, rfl, _, rfl⟩

theorem witness_GoertzelRecurrenceAgrees : ∃ A, IsExactAmplitude 49 [255, 0, 17] A := ⟨_, rfl⟩

theorem witness_StartEffect : State.reset.run = .stopped ∧ bounded.run = .running := by decide

theorem witness_StopEffect : bounded.run = .running ∧ State.reset.run = .stopped := by decide

theorem witness_ControlIdempotentAndRestart : ({ bounded with hook := .offHook, err := true } : State).Inv := inv_of_check (by decide)

theorem witness_ConfigurationIsFixed : ∃ t, step { bounded with host := [.rst] } = .next t ∧ t.cfg.outDepth = some 4 := ⟨_, rfl, rfl⟩

theorem witness_NoStepTraps : State.reset.cfg.legal = true ∧ bounded.cfg.legal = true := by decide

theorem witness_StepRunsControlCode (c : CtrlCode) :
    bounded.cfg.legal = true ∧ ({ bounded with samplePort := [1], host := [.control c] } : State).host = .control c :: [] := ⟨by decide, rfl⟩

theorem witness_ResetMidRun :
    bounded.cfg.legal = true ∧ ({ bounded with hook := .offHook, err := true, samplePort := [8], host := [.rst] } : State).host = .rst :: [] :=
  ⟨by decide, rfl⟩

/-- One free slot is one too few; two are enough. -/
theorem witness_FullFifoHoldsSamples :
    bounded.cfg.legal = true ∧ bounded.cfg.outDepth = some 4 ∧ 4 < bounded.out.length + 2 ∧ ¬ 4 < bounded.takeHead.out.length + 2 ∧
      ({ bounded with host := sampleMoves [1, 2] } : State).host = sampleMoves [1, 2] ∧
      (running [] []).cfg.outDepth = none ∧ (running [] []).run = .running := by decide

theorem witness_WaitingSamplesAreTaken :
    config4.legal = true ∧ config4.outDepth = none ∧ (∀ m ∈ [HostMove.take, .sampleTurn], m = .take ∨ m = .sampleTurn) ∧
      gives (runSteps 5 { running [] [] with samplePort := [1, 2, 3], host := [.take, .sampleTurn] })
        (fun t => t.samplePort == [] && t.host == [] && t.p == [1, 2, 3]) = true := by decide

end Sys2Proof.Tests
end

/-! ## Proofs of the statements of 00_scope.md -/

namespace Sys2Proof

/-! ### What makes a configuration legal -/

theorem Config.legalCapacity_iff (n : Nat) : Config.legalCapacity n = true ↔ 1 ≤ n ∧ n ≤ 65535 := by
  simp [Config.legalCapacity]

theorem Config.legalDepth_iff (depth : Option Nat) : Config.legalDepth depth = true ↔ ∀ d, depth = some d → 2 ≤ d := by
  cases depth <;> simp [Config.legalDepth]

/-- In the reals a ratio with denominator 0 is 0, so it is no AMP_TOL > 0 either. -/
theorem Config.legalTolerance_iff (tol : Tolerance) : Config.legalTolerance tol = true ↔ 0 < tol.value := by
  cases tol with
  | ratio num den =>
    have hnum : ¬ (num : ℝ) < 0 := not_lt.2 num.cast_nonneg
    simp [Config.legalTolerance, Tolerance.value, div_pos_iff, hnum]
  | real n => exact iff_of_true rfl (Config.realTolerance n).2

theorem Config.legal_iff (c : Config) : c.legal = true ↔
    (1 ≤ c.pcap ∧ c.pcap ≤ 65535) ∧ (1 ≤ c.scap ∧ c.scap ≤ 65535) ∧ (∀ d, c.outDepth = some d → 2 ≤ d) ∧
      0 < c.ampTol.value := by
  simp only [Config.legal, Bool.and_eq_true, Config.legalCapacity_iff, Config.legalDepth_iff, Config.legalTolerance_iff, and_assoc]

end Sys2Proof

namespace Sys2Proof.Machine

/-! ### Capacities and elaboration -/

/-- A capacity of at least 1 needs a product of at least 1/2, so a positive rate (R7). -/
theorem rate_pos_of_capacityOf_pos {rate : ℝ} {millis : Nat} (h : 1 ≤ capacityOf rate millis) : 0 < rate := by
  have hfloor : ((1 : ℕ) : ℝ) ≤ rate * (millis / 1000) + 1 / 2 := (Nat.le_floor_iff' one_ne_zero).1 h
  have hprod : 0 < rate * ((millis : ℝ) / 1000) := by push_cast at hfloor; linarith
  exact pos_of_mul_pos_left hprod (by positivity)

/-- At a rate that is not negative the capacity is the half-up rounding in the integers (R8). -/
theorem capacityOf_eq_floor {rate : ℝ} (h : 0 ≤ rate) (millis : Nat) :
    (capacityOf rate millis : ℤ) = ⌊rate * (millis / 1000) + 1 / 2⌋ :=
  Int.natCast_floor_eq_floor (by positivity)

/-- The rounding computed in the naturals is the rounding of the real quotient, a denominator of 0 included. -/
theorem roundHalfUp_eq_floor (num den : Nat) : roundHalfUp num den = ⌊(num : ℝ) / den + 1 / 2⌋₊ := by
  rcases Nat.eq_zero_or_pos den with rfl | hden
  · have hhalf : ⌊(1 / 2 : ℝ)⌋₊ = 0 := Nat.floor_eq_zero.2 (by norm_num)
    simpa [roundHalfUp] using hhalf.symm
  · have hquot : (num : ℝ) / den + 1 / 2 = ((2 * num + den : ℕ) : ℝ) / (2 * den : ℕ) := by
      push_cast
      field_simp
    rw [hquot, Nat.floor_div_eq_div, roundHalfUp]

theorem ratioCapacity_eq_capacityOf (rate : Ratio) (millis : Nat) :
    ratioCapacity rate millis = capacityOf ((rate.num : ℝ) / rate.den) millis := by
  rw [ratioCapacity, roundHalfUp_eq_floor, capacityOf]
  push_cast
  rw [div_mul_div_comm]

theorem elaborateRatio_eq_elaborate (rate : Ratio) (depth : Option Nat) (tol : Tolerance) :
    elaborateRatio rate depth tol = elaborate ((rate.num : ℝ) / rate.den) depth tol := by
  simp only [elaborateRatio, elaborate, ratioCapacity_eq_capacityOf]

/-- A block that elaboration gives has the configuration of its rate, and that configuration is legal. -/
theorem elaborate_eq_some {rate : ℝ} {depth : Option Nat} {tol : Tolerance} {c : Config} (h : elaborate rate depth tol = some c) :
    c = ⟨capacityOf rate pauseWindowMillis, capacityOf rate symbolWindowMillis, depth, tol⟩ ∧ c.legal = true := by
  rw [elaborate, elaborateCapacities, Option.ite_none_right_eq_some, Option.some.injEq] at h
  obtain ⟨hlegal, rfl⟩ := h
  exact ⟨rfl, hlegal⟩

/-! ### No move is refused -/

theorem exec_answers (i : Instr) (st : State) : ∃ t, exec i st = .next t := by
  cases i with
  | sample v => exact ⟨_, rfl⟩
  | start => cases hr : st.run <;> simp [exec, execStart, hr]
  | stop => cases hr : st.run <;> simp [exec, execStop, hr]
  | rsvd => exact ⟨_, rfl⟩

theorem runMove_answers (m : HostMove) (st : State) : ∃ t, runMove m st = .next t := by
  cases m with
  | word w => exact exec_answers (decode w) st
  | control c => exact exec_answers (decodeControl c) st
  | take | rst | sampleTurn => exact ⟨_, rfl⟩

theorem step_answers {st : State} (hl : st.cfg.legal = true) : ∃ t, step st = .next t := by
  rw [step_of_legal hl]
  exact runMove_answers _ _

theorem step_refused_iff (st : State) : step st = .refused .illegalConfiguration ↔ st.cfg.legal = false := by
  cases hl : st.cfg.legal with
  | true =>
    obtain ⟨t, ht⟩ := step_answers hl
    simp [ht]
  | false => simp [step, hl]

/-! ### The obligations -/

/-- Settles O1: a legal PCAP is at least 1, so the rate is positive and both naturals are the integer roundings; the computed
elaboration rounds the same quotient. -/
theorem capacitiesAreRounded : Obligations.CapacitiesAreRounded := by
  unfold Obligations.CapacitiesAreRounded
  refine ⟨fun rate depth tol c h => ?_, elaborateRatio_eq_elaborate⟩
  obtain ⟨rfl, hlegal⟩ := elaborate_eq_some h
  obtain ⟨⟨hpcap, -⟩, -⟩ := (Config.legal_iff _).1 hlegal
  have hrate : 0 < rate := rate_pos_of_capacityOf_pos hpcap
  have hpause : ((pauseWindowMillis : ℕ) : ℝ) / 1000 = 0.007 := by norm_num [pauseWindowMillis]
  have hsymbol : ((symbolWindowMillis : ℕ) : ℝ) / 1000 = 0.03 := by norm_num [symbolWindowMillis]
  rw [← hpause, ← hsymbol]
  exact ⟨hrate, capacityOf_eq_floor hrate.le _, capacityOf_eq_floor hrate.le _⟩

/-- Settles O2: `Config.legal` is the ranges of R9, R10 and R11, elaboration tests it, and a step refuses exactly without it. -/
theorem illegalConfigurationRefused : Obligations.IllegalConfigurationRefused := by
  unfold Obligations.IllegalConfigurationRefused
  exact ⟨Config.legal_iff, fun _ _ _ => rfl, step_refused_iff⟩

/-- Settles O3: 9615.38 is the ratio 961538 / 100, where elaboration is computed. -/
theorem referenceCapacities : Obligations.ReferenceCapacities := by
  unfold Obligations.ReferenceCapacities
  have hrate : (9615.38 : ℝ) = ((961538 : ℕ) : ℝ) / (100 : ℕ) := by norm_num
  refine ⟨?_, rfl, rfl⟩
  rw [hrate, ← elaborateRatio_eq_elaborate ⟨961538, 100⟩]
  decide

end Sys2Proof.Machine

/-! ## Proofs of the statements of 10_state.md -/

namespace Sys2Proof.Machine

/-! ### The fields of STATUS (R27) -/

theorem status_run (st : State) : st.status.getLsbD 0 = decide (st.run = .running) := by
  refine BitVec.getLsbD_append.trans ?_
  simp

theorem status_hook (st : State) : st.status.getLsbD 1 = decide (st.hook = .offHook) := by
  refine BitVec.getLsbD_append.trans ?_
  simp only [BitVec.getLsbD_append]
  simp

theorem status_err (st : State) : st.status.getLsbD 2 = st.err := by
  refine BitVec.getLsbD_append.trans ?_
  simp only [BitVec.getLsbD_append]
  simp

theorem status_reservedLow (st : State) : st.status.extractLsb' 3 13 = 0#13 := by
  refine (BitVec.extractLsb'_append_eq_of_le (by decide)).trans ?_
  iterate 2 rw [BitVec.extractLsb'_append_eq_of_le (by decide)]
  exact BitVec.extractLsb'_append_eq_right

theorem status_pCount (st : State) : st.status.extractLsb' 16 16 = BitVec.ofNat 16 st.p.length := by
  refine (BitVec.extractLsb'_append_eq_of_le (by decide)).trans ?_
  iterate 3 rw [BitVec.extractLsb'_append_eq_of_le (by decide)]
  exact BitVec.extractLsb'_append_eq_right

theorem status_sCount (st : State) : st.status.extractLsb' 32 16 = BitVec.ofNat 16 st.s.length := by
  refine (BitVec.extractLsb'_append_eq_of_le (by decide)).trans ?_
  iterate 4 rw [BitVec.extractLsb'_append_eq_of_le (by decide)]
  exact BitVec.extractLsb'_append_eq_right

theorem status_reservedHigh (st : State) : st.status.extractLsb' 48 16 = 0#16 := by
  refine (BitVec.extractLsb'_append_eq_of_le (by decide)).trans ?_
  iterate 4 rw [BitVec.extractLsb'_append_eq_of_le (by decide)]
  exact BitVec.extractLsb'_append_eq_left

theorem status_resetWith (c : Config) : (State.resetWith c).status = 0#64 := by
  simp [State.status, State.resetWith]

/-! ### The transfer at the event port (R75) -/

theorem takeHead_eq (st : State) :
    st.takeHead = { st with out := st.out.tail, taken := st.taken ++ st.out.head?.toList } := by
  obtain ⟨cfg, run, p, s, hook, err, out, port, host, taken⟩ := st
  cases out <;> simp [State.takeHead]

@[simp] theorem takeHead_run (st : State) : st.takeHead.run = st.run := by rw [takeHead_eq]

@[simp] theorem takeHead_hook (st : State) : st.takeHead.hook = st.hook := by rw [takeHead_eq]

@[simp] theorem takeHead_err (st : State) : st.takeHead.err = st.err := by rw [takeHead_eq]

/-- A transfer at the event port moves the head of OUT to the end of what the consumer has. -/
theorem takeHead_taken_append_out (st : State) : st.takeHead.taken ++ st.takeHead.out = st.taken ++ st.out := by
  rw [takeHead_eq]
  cases st.out <;> simp

/-! ### What a classification and an accepted sample do to HOOK and OUT -/

/-- The handset state changes only where the sum of the window crosses the threshold that applies (R125, R126). -/
theorem hookOutcome_fst_ne {h : HookState} {w : List Sample} (hne : (hookOutcome h w).1 ≠ h) :
    (h = .onHook ∧ (hookOutcome h w).1 = .offHook ∧ 180 * w.length < windowSum w) ∨
      (h = .offHook ∧ (hookOutcome h w).1 = .onHook ∧ windowSum w < 20 * w.length) := by
  cases h with
  | onHook =>
    by_cases hsum : windowSum w > 180 * w.length
    · exact .inl ⟨rfl, by simp [hookOutcome, hsum], hsum⟩
    · simp [hookOutcome, hsum] at hne
  | offHook =>
    by_cases hsum : windowSum w < 20 * w.length
    · exact .inr ⟨rfl, by simp [hookOutcome, hsum], hsum⟩
    · simp [hookOutcome, hsum] at hne

/-- A classification emits at most one hook event, and it carries no lanes. -/
theorem hookOutcome_snd (h : HookState) (w : List Sample) :
    (hookOutcome h w).2.length ≤ 1 ∧ ∀ e ∈ (hookOutcome h w).2, e.legal = true := by
  rcases hookOutcome_cases h w with e | ⟨-, e⟩ | ⟨-, e⟩ <;> simp [e, Event.legal]

theorem acceptSample_hook (v : Sample) (st : State) :
    (st.acceptSample v).hook = st.hook ∨
      st.cfg.pcap ≤ st.p.length ∧ (st.acceptSample v).hook = (hookOutcome st.hook st.p).1 := by
  rcases acceptSample_cases v st with ⟨-, e⟩ | ⟨hp, -, e⟩ | ⟨hp, -, _, _, -, e⟩
  · exact .inl (by rw [e])
  · exact .inr ⟨hp, by rw [e]⟩
  · exact .inr ⟨hp, by rw [e]⟩

/-- An accepted sample emits at most two events, at the tail of OUT, and all of them are ones the block can hold (R48, R69). -/
theorem acceptSample_out (v : Sample) (st : State) :
    ∃ new, (st.acceptSample v).out = st.out ++ new ∧ new.length ≤ 2 ∧ ∀ e ∈ new, e.legal = true := by
  obtain ⟨hlen, hlegal⟩ := hookOutcome_snd st.hook st.p
  rcases acceptSample_cases v st with ⟨-, e⟩ | ⟨-, -, e⟩ | ⟨-, -, s', last, hlast, e⟩
  · exact ⟨[], by rw [e, List.append_nil], by simp, by simp⟩
  · refine ⟨(hookOutcome st.hook st.p).2 ++ [.pause], by rw [e, List.append_assoc], ?_, ?_⟩
    · simpa using hlen
    · simpa [or_imp, forall_and, Event.legal] using hlegal
  · refine ⟨(hookOutcome st.hook st.p).2 ++ last, by rw [e, List.append_assoc], ?_, ?_⟩
    · rcases hlast with ⟨-, -, rfl⟩ | ⟨-, -, rfl⟩ <;> simp <;> omega
    · rcases hlast with ⟨-, -, rfl⟩ | ⟨-, -, rfl⟩ <;> simpa [or_imp, forall_and, analyze_legal] using hlegal

theorem serveSample_out (st : State) : ∃ new, st.serveSample.out = st.out ++ new := by
  rcases serveSample_cases st with ⟨e, -⟩ | ⟨v, _, -, -, e⟩
  · exact ⟨[], by rw [e, List.append_nil]⟩
  · obtain ⟨new, hnew, -⟩ := acceptSample_out v st.dropSample
    exact ⟨new, by rw [e, hnew, State.dropSample_out]⟩

/-- The sample port's turn changes HOOK only by a classification of a full P. -/
theorem serveSample_hook_ne {st : State} (hne : st.serveSample.hook ≠ st.hook) :
    st.samplePort ≠ [] ∧ st.sReady = true ∧ st.cfg.pcap ≤ st.p.length ∧
      ((st.hook = .onHook ∧ st.serveSample.hook = .offHook ∧ 180 * st.p.length < windowSum st.p) ∨
        (st.hook = .offHook ∧ st.serveSample.hook = .onHook ∧ windowSum st.p < 20 * st.p.length)) := by
  rcases serveSample_cases st with ⟨e, -⟩ | ⟨v, rest, hport, hready, e⟩
  · exact absurd (by rw [e]) hne
  rw [e] at hne ⊢
  rcases acceptSample_hook v st.dropSample with hsame | ⟨hp, hhook⟩
  · exact absurd hsame hne
  · rw [hhook] at hne ⊢
    exact ⟨by simp [hport], hready, hp, hookOutcome_fst_ne hne⟩

/-! ### The invariants -/

/-- The invariants read neither HOOK, nor ERR, nor what the agents around the block hold. -/
theorem State.Inv.of_unread {st : State} (h : st.Inv) (hook : HookState) (err : Bool) (port : List Sample) (host : List HostMove)
    (taken : List Event) : State.Inv { st with hook := hook, err := err, samplePort := port, host := host, taken := taken } :=
  ⟨h.legalConfig, h.pBound, h.sBound, h.stopped, h.outBound, h.events⟩

/-- A block with nothing in P, S and OUT meets the invariants, whatever RUN is. -/
theorem inv_of_empty {st : State} (hc : st.cfg.legal = true) (hp : st.p = []) (hs : st.s = []) (ho : st.out = []) : st.Inv where
  legalConfig := hc
  pBound := by simp [hp]
  sBound := by
    obtain ⟨-, ⟨hscap, -⟩, -⟩ := (Config.legal_iff _).1 hc
    rw [hs]
    exact hscap
  stopped _ := ⟨hp, hs, ho⟩
  outBound := by simp [ho]
  events := by simp [ho]

theorem takeHead_inv {st : State} (h : st.Inv) : st.takeHead.Inv := by
  rw [takeHead_eq]
  exact {
    legalConfig := h.legalConfig
    pBound := h.pBound
    sBound := h.sBound
    stopped := fun hr => by
      obtain ⟨hp, hs, ho⟩ := h.stopped hr
      exact ⟨hp, hs, by simp [ho]⟩
    outBound := fun d hd => (List.tail_sublist st.out).length_le.trans (h.outBound d hd)
    events := fun e he => h.events e (List.mem_of_mem_tail he) }

/-- I1 for P: a full P makes room for the new sample, because at least one sample of it leaves (R104, R105). -/
theorem acceptSample_pBound {st : State} (h : st.Inv) (v : Sample) : (st.acceptSample v).p.length ≤ st.cfg.pcap := by
  obtain ⟨⟨hpcap, -⟩, -⟩ := (Config.legal_iff _).1 h.legalConfig
  have hp := h.pBound
  have hs := h.sBound
  rcases acceptSample_cases v st with ⟨hlt, e⟩ | ⟨-, -, e⟩ | ⟨hge, -, _, _, -, e⟩
  · simpa [e] using hlt
  · simpa [e] using hpcap
  · simp only [e, List.length_append, migrateLoop_length_fst, List.length_singleton]
    omega

/-- I1 for S: a migration leaves S below its capacity or full, and a full S is trimmed to three quarters (R105, R107). -/
theorem acceptSample_sBound {st : State} (h : st.Inv) (v : Sample) : (st.acceptSample v).s.length < st.cfg.scap := by
  have hs := h.sBound
  rcases acceptSample_cases v st with ⟨-, e⟩ | ⟨-, -, e⟩ | ⟨-, -, _, _, ⟨rfl, hne, -⟩ | ⟨rfl, -, -⟩, e⟩
  · simpa [e] using hs
  · simpa [e] using Nat.zero_lt_of_lt hs
  · rw [migrateLoop_length_snd] at hne
    simp only [e, migrateLoop_length_snd]
    omega
  · simp only [e, trimLoop_length]
    omega

/-- An accepted sample keeps the invariants: the two free places that `sReady` asks for hold what it emits (R101). -/
theorem acceptSample_inv {st : State} (h : st.Inv) (hready : st.sReady = true) (v : Sample) : (st.acceptSample v).Inv := by
  obtain ⟨hrun, hroom⟩ := (sReady_iff st).1 hready
  obtain ⟨new, hout, hlen, hlegal⟩ := acceptSample_out v st
  exact {
    legalConfig := by rw [acceptSample_cfg]; exact h.legalConfig
    pBound := by rw [acceptSample_cfg]; exact acceptSample_pBound h v
    sBound := by rw [acceptSample_cfg]; exact acceptSample_sBound h v
    stopped := fun hr => by simp [hrun] at hr
    outBound := fun d hd => by
      rw [acceptSample_cfg] at hd
      have := hroom d hd
      rw [hout, List.length_append]
      omega
    events := fun e he => by
      rw [hout, List.mem_append] at he
      exact he.elim (h.events e) (hlegal e) }

theorem serveSample_inv {st : State} (h : st.Inv) : st.serveSample.Inv := by
  rcases serveSample_cases st with ⟨e, -⟩ | ⟨v, rest, -, hready, e⟩
  · rwa [e]
  · rw [e]
    exact acceptSample_inv (h.of_unread st.hook st.err st.samplePort.tail st.host st.taken) hready v

theorem exec_inv {i : Instr} {st t : State} (h : st.Inv) (he : exec i st = .next t) : t.Inv := by
  rcases exec_cases he with
    ⟨v, -, rfl⟩ | ⟨-, ⟨hr, rfl⟩ | ⟨-, rfl⟩⟩ | ⟨-, ⟨-, rfl⟩ | ⟨-, rfl⟩⟩ | ⟨-, rfl⟩
  · exact serveSample_inv (h.of_unread st.hook st.err (st.samplePort ++ [v]) st.host st.taken)
  · obtain ⟨-, -, ho⟩ := h.stopped hr
    exact inv_of_empty h.legalConfig rfl rfl ho
  · exact h
  · exact inv_of_empty h.legalConfig rfl rfl rfl
  · exact h
  · exact h.of_unread st.hook true st.samplePort st.host st.taken

/-! ### Which moves name a transaction -/

theorem decodeControl_ne_sample (code : CtrlCode) (v : Sample) : decodeControl code ≠ .sample v := by
  unfold decodeControl
  split_ifs <;> simp

/-- A SAMPLE comes as a word only: no code on the control port stands for one. -/
theorem instr_eq_sample {m : HostMove} {v : Sample} (h : m.instr = some (.sample v)) : ∃ w, m = .word w ∧ decode w = .sample v := by
  cases m with
  | word w => exact ⟨w, rfl, Option.some.inj h⟩
  | control code => exact absurd (Option.some.inj h) (decodeControl_ne_sample code v)
  | take | rst | sampleTurn => cases h

/-! ### Every move commutes with writing ERR (R25) -/

theorem acceptSample_with_err (v : Sample) (st : State) (b : Bool) :
    { st with err := b }.acceptSample v = { st.acceptSample v with err := b } := by
  by_cases hp : st.p.length < st.cfg.pcap
  · rw [acceptSample_append v hp, acceptSample_append v (st := { st with err := b }) hp]
  cases hs : silent st.p with
  | true => rw [acceptSample_silence v hp hs, acceptSample_silence v (st := { st with err := b }) hp hs]
  | false =>
    by_cases hf : (migrateLoop st.cfg.pcap st.cfg.scap st.p st.s).2.length = st.cfg.scap
    · rw [acceptSample_evaluate v hp hs hf, acceptSample_evaluate v (st := { st with err := b }) hp hs hf]
    · rw [acceptSample_migrate v hp hs hf, acceptSample_migrate v (st := { st with err := b }) hp hs hf]

theorem serveSample_with_err (st : State) (b : Bool) : { st with err := b }.serveSample = { st.serveSample with err := b } := by
  rcases serveSample_cases st with ⟨e, hport | hready⟩ | ⟨v, rest, hport, hready, e⟩
  · rw [e, serveSample_of_nil (st := { st with err := b }) hport]
  · rw [e, serveSample_of_not_ready (st := { st with err := b }) hready]
  · rw [e, serveSample_of_ready (st := { st with err := b }) hport hready]
    exact acceptSample_with_err v st.dropSample b

/-- The value of ERR changes nothing of what a transaction does but ERR. -/
theorem exec_with_err {i : Instr} {st t : State} (b : Bool) (h : exec i st = .next t) :
    ∃ b', exec i { st with err := b } = .next { t with err := b' } := by
  rcases exec_cases h with
    ⟨v, rfl, rfl⟩ | ⟨rfl, ⟨hr, rfl⟩ | ⟨hr, rfl⟩⟩ | ⟨rfl, ⟨hr, rfl⟩ | ⟨hr, rfl⟩⟩ | ⟨rfl, rfl⟩
  · exact ⟨b, congrArg Host.Outcome.next (serveSample_with_err (st.present v) b)⟩
  · exact ⟨b, by simp only [exec, execStart, hr]; rfl⟩
  · exact ⟨b, by simp only [exec, execStart, hr]⟩
  · exact ⟨b, by simp only [exec, execStop, hr]; rfl⟩
  · exact ⟨b, by simp only [exec, execStop, hr]⟩
  · exact ⟨true, rfl⟩

/-- The value of ERR changes nothing of what a move does but ERR. -/
theorem runMove_with_err {m : HostMove} {st t : State} (b : Bool) (h : runMove m st = .next t) :
    ∃ b', runMove m { st with err := b } = .next { t with err := b' } := by
  cases m with
  | word w => exact exec_with_err b h
  | control code => exact exec_with_err b h
  | take =>
    obtain rfl := Host.Outcome.next.inj h
    exact ⟨b, congrArg Host.Outcome.next (by rw [takeHead_eq, takeHead_eq])⟩
  | rst =>
    obtain rfl := Host.Outcome.next.inj h
    exact ⟨false, rfl⟩
  | sampleTurn =>
    obtain rfl := Host.Outcome.next.inj h
    exact ⟨b, congrArg Host.Outcome.next (serveSample_with_err st b)⟩

theorem nextMove_with_err (st : State) (b : Bool) :
    { st with err := b }.nextMove = (st.nextMove.1, { st.nextMove.2 with err := b }) := by
  cases hh : st.host <;> simp [State.nextMove, State.dropMove, hh]

/-! ### The obligations -/

/-- Settles O6: a step takes the host's move, which the invariants do not read, and then each kind of move keeps them; an accepted
sample by `acceptSample_inv`. -/
theorem stepKeepsInvariant : Obligations.StepKeepsInvariant := by
  unfold Obligations.StepKeepsInvariant
  intro st t h hstep
  have hdrop : st.dropMove.Inv := h.of_unread st.hook st.err st.samplePort st.host.tail st.taken
  rcases step_cases hstep with ⟨hl, ⟨_, _, -, -, he⟩ | ⟨-, rfl⟩ | ⟨-, rfl⟩ | ⟨-, rfl⟩⟩
  · exact exec_inv hdrop he
  · exact takeHead_inv hdrop
  · exact inv_of_empty hl rfl rfl rfl
  · exact serveSample_inv hdrop

/-- Settles O5: the fields of STATUS one by one; the invariants keep both counts below 2^16. -/
theorem statusShowsState : Obligations.StatusShowsState := by
  unfold Obligations.StatusShowsState
  refine ⟨status_resetWith, fun st h => ?_⟩
  obtain ⟨⟨-, hpcap⟩, ⟨-, hscap⟩, -⟩ := (Config.legal_iff _).1 h.legalConfig
  have hp : st.p.length < 2 ^ 16 := by have := h.pBound; omega
  have hs : st.s.length < 2 ^ 16 := by have := h.sBound; omega
  rw [status_run, status_hook, status_err, status_pCount, status_sCount, BitVec.toNat_ofNat, BitVec.toNat_ofNat,
    Nat.mod_eq_of_lt hp, Nat.mod_eq_of_lt hs, decide_eq_true_iff, decide_eq_true_iff]
  exact ⟨Iff.rfl, Iff.rfl, Iff.rfl, status_reservedLow st, rfl, rfl, status_reservedHigh st⟩

/-- Settles O9: of all moves only the sample port's turn and a reset write HOOK. -/
theorem hookChangesOnlyByClassification : Obligations.HookChangesOnlyByClassification := by
  unfold Obligations.HookChangesOnlyByClassification
  intro st t h hstep hne
  rcases step_cases hstep with ⟨-, ⟨m, i, hm, hi, he⟩ | ⟨-, rfl⟩ | ⟨hm, rfl⟩ | ⟨hturn, rfl⟩⟩
  · rcases exec_cases he with
      ⟨v, rfl, rfl⟩ | ⟨-, ⟨-, rfl⟩ | ⟨-, rfl⟩⟩ | ⟨-, ⟨-, rfl⟩ | ⟨-, rfl⟩⟩ | ⟨-, rfl⟩
    · obtain ⟨w, rfl, hw⟩ := instr_eq_sample hi
      obtain ⟨-, hready, hp, hcross⟩ := serveSample_hook_ne hne
      exact .inr ⟨.inl ⟨w, v, hm, hw⟩, hready, le_antisymm h.pBound hp, hcross⟩
    all_goals exact absurd rfl hne
  · exact absurd (takeHead_hook st.dropMove) hne
  · exact .inl ⟨hm, rfl⟩
  · obtain ⟨hport, hready, hp, hcross⟩ := serveSample_hook_ne hne
    exact .inr ⟨.inr ⟨hturn, hport⟩, hready, le_antisymm h.pBound hp, hcross⟩

/-- Settles O11: the next move is the same, and every move commutes with writing ERR. -/
theorem errHasNoEffect : Obligations.ErrHasNoEffect := by
  unfold Obligations.ErrHasNoEffect
  intro st t b hstep
  obtain ⟨hl, -⟩ := step_cases hstep
  rw [step_of_legal hl] at hstep
  rw [step_of_legal (st := { st with err := b }) hl, nextMove_with_err]
  exact runMove_with_err b hstep

/-- Settles O12: SAMPLE appends to OUT, a transfer moves its head to `taken`, STOP and reset empty it, and the rest leave it alone. -/
theorem eventsAreFifo : Obligations.EventsAreFifo := by
  unfold Obligations.EventsAreFifo
  intro st t hstep
  have hserve (u : State) : ∃ new, u.serveSample.taken ++ u.serveSample.out = u.taken ++ u.out ++ new := by
    obtain ⟨new, hnew⟩ := serveSample_out u
    exact ⟨new, by rw [serveSample_taken, hnew, List.append_assoc]⟩
  have hkeep : ∃ new, st.taken ++ st.out = st.taken ++ st.out ++ new := ⟨[], (List.append_nil _).symm⟩
  rcases step_cases hstep with ⟨-, ⟨m, i, hm, hi, he⟩ | ⟨-, rfl⟩ | ⟨hm, rfl⟩ | ⟨-, rfl⟩⟩
  · rcases exec_cases he with
      ⟨v, -, rfl⟩ | ⟨-, ⟨-, rfl⟩ | ⟨-, rfl⟩⟩ | ⟨rfl, ⟨hr, rfl⟩ | ⟨-, rfl⟩⟩ | ⟨-, rfl⟩
    · exact .inl (hserve (st.dropMove.present v))
    · exact .inl hkeep
    · exact .inl hkeep
    · exact .inr ⟨rfl, rfl, m, hm, .inl ⟨hi, hr⟩⟩
    · exact .inl hkeep
    · exact .inl hkeep
  · exact .inl ⟨[], by rw [takeHead_taken_append_out, List.append_nil]; rfl⟩
  · exact .inr ⟨rfl, rfl, .rst, hm, .inr rfl⟩
  · exact .inl (hserve st.dropMove)

/-- Settles O4: the fields by definition, STATUS by `status_resetWith`. -/
theorem resetValues : Obligations.ResetValues := by
  unfold Obligations.ResetValues
  exact fun c => ⟨rfl, rfl, rfl, rfl, rfl, rfl, status_resetWith c⟩

/-- Settles O7: P, S and OUT are empty after reset. -/
theorem resetMeetsInvariant : Obligations.ResetMeetsInvariant := by
  unfold Obligations.ResetMeetsInvariant
  exact ⟨fun _ _ _ hc => inv_of_empty hc rfl rfl rfl, rfl⟩

/-- Settles O8: only START from Stopped, STOP from Running and a reset write RUN. -/
theorem runChangesOnlyByControl : Obligations.RunChangesOnlyByControl := by
  unfold Obligations.RunChangesOnlyByControl
  intro st t hstep hne
  rcases step_cases hstep with ⟨-, ⟨m, i, hm, hi, he⟩ | ⟨-, rfl⟩ | ⟨hm, rfl⟩ | ⟨-, rfl⟩⟩
  · rcases exec_cases he with
      ⟨v, -, rfl⟩ | ⟨rfl, ⟨hr, rfl⟩ | ⟨-, rfl⟩⟩ | ⟨rfl, ⟨hr, rfl⟩ | ⟨-, rfl⟩⟩ | ⟨-, rfl⟩
    · exact absurd (serveSample_run _) hne
    · exact ⟨m, hm, .inl ⟨hi, hr, rfl⟩⟩
    · exact absurd rfl hne
    · exact ⟨m, hm, .inr (.inl ⟨hi, hr, rfl⟩)⟩
    · exact absurd rfl hne
    · exact absurd rfl hne
  · exact absurd (takeHead_run _) hne
  · exact ⟨.rst, hm, .inr (.inr ⟨rfl, rfl⟩)⟩
  · exact absurd (serveSample_run _) hne

/-- Settles O10: only RSVD and a reset write ERR. -/
theorem errIsSticky : Obligations.ErrIsSticky := by
  unfold Obligations.ErrIsSticky
  intro st t hstep hne
  rcases step_cases hstep with ⟨-, ⟨m, i, hm, hi, he⟩ | ⟨-, rfl⟩ | ⟨hm, rfl⟩ | ⟨-, rfl⟩⟩
  · rcases exec_cases he with
      ⟨v, -, rfl⟩ | ⟨-, ⟨-, rfl⟩ | ⟨-, rfl⟩⟩ | ⟨-, ⟨-, rfl⟩ | ⟨-, rfl⟩⟩ | ⟨rfl, rfl⟩
    · exact absurd (serveSample_err _) hne
    · exact absurd rfl hne
    · exact absurd rfl hne
    · exact absurd rfl hne
    · exact absurd rfl hne
    · exact ⟨m, hm, .inl ⟨hi, rfl⟩⟩
  · exact absurd (takeHead_err _) hne
  · exact ⟨.rst, hm, .inr ⟨rfl, rfl⟩⟩
  · exact absurd (serveSample_err _) hne

end Sys2Proof.Machine

/-! ## Proofs of the statements of 20_memory.md -/

namespace Sys2Proof.Machine

/-! ### A stopped, empty block (R49, R212, R221) -/

/-- `u` is stopped and empty, no START is to come, and since `st` no event was delivered and no waiting sample left the port. -/
structure WaitsSince (st u : State) : Prop where
  run : u.run = .stopped
  p : u.p = []
  s : u.s = []
  out : u.out = []
  taken : u.taken = st.taken
  port : st.samplePort <+: u.samplePort
  noStart : ∀ m ∈ u.host, m.instr ≠ some .start

theorem sReady_of_stopped {st : State} (h : st.run = .stopped) : st.sReady = false := by simp [State.sReady, h]

theorem dropMove_waitsSince {st u : State} (h : WaitsSince st u) : WaitsSince st u.dropMove :=
  { h with noStart := fun m hm => h.noStart m (List.mem_of_mem_tail hm) }

/-- A sample presented to a stopped block waits, STOP does nothing, and RSVD writes ERR only. -/
theorem exec_waitsSince {st u t : State} {i : Instr} (h : WaitsSince st u) (hi : i ≠ .start) (he : exec i u = .next t) :
    WaitsSince st t := by
  rcases exec_cases he with ⟨v, -, rfl⟩ | ⟨hstart, -⟩ | ⟨-, ⟨hr, -⟩ | ⟨-, rfl⟩⟩ | ⟨-, rfl⟩
  · rw [serveSample_of_not_ready (sReady_of_stopped (st := u.present v) h.run)]
    exact { h with port := h.port.trans (List.prefix_append _ _) }
  · exact absurd hstart hi
  · exact absurd (hr.symm.trans h.run) (by decide)
  · exact h
  · exact { h with }

theorem step_waitsSince {st u t : State} (h : WaitsSince st u) (hstep : step u = .next t) : WaitsSince st t := by
  have hdrop : WaitsSince st u.dropMove := dropMove_waitsSince h
  rcases step_cases hstep with ⟨-, ⟨m, i, hm, hi, he⟩ | ⟨-, rfl⟩ | ⟨-, rfl⟩ | ⟨-, rfl⟩⟩
  · refine exec_waitsSince hdrop ?_ he
    rintro rfl
    exact h.noStart m (List.mem_of_mem_head? hm) hi
  · rw [takeHead_of_nil (st := u.dropMove) h.out]
    exact hdrop
  · exact { hdrop with run := rfl, p := rfl, s := rfl, out := rfl }
  · rw [serveSample_of_not_ready (sReady_of_stopped (st := u.dropMove) h.run)]
    exact hdrop

/-! ### The order of arrival (R46) -/

/-- An accepted sample neither reads nor writes what the agents around the block hold. -/
theorem acceptSample_with_agents (v : Sample) (st : State) (port : List Sample) (host : List HostMove) (taken : List Event) :
    { st with samplePort := port, host := host, taken := taken }.acceptSample v =
      { st.acceptSample v with samplePort := port, host := host, taken := taken } := by
  set u : State := { st with samplePort := port, host := host, taken := taken }
  by_cases hp : st.p.length < st.cfg.pcap
  · rw [acceptSample_append v hp, acceptSample_append v (st := u) hp]
  cases hs : silent st.p with
  | true => rw [acceptSample_silence v hp hs, acceptSample_silence v (st := u) hp hs]
  | false =>
    by_cases hf : (migrateLoop st.cfg.pcap st.cfg.scap st.p st.s).2.length = st.cfg.scap
    · rw [acceptSample_evaluate v hp hs hf, acceptSample_evaluate v (st := u) hp hs hf]
    · rw [acceptSample_migrate v hp hs hf, acceptSample_migrate v (st := u) hp hs hf]

/-- The sample port's turn does what a SAMPLE of the oldest waiting sample does with an empty port, and the others stay in order. -/
theorem serveSample_oldest {st : State} {x : Sample} {rest : List Sample} (hport : st.samplePort = x :: rest)
    (hready : st.sReady = true) :
    ∃ t, exec (.sample x) { st with samplePort := [] } = .next t ∧ st.serveSample = { t with samplePort := rest } := by
  refine ⟨_, execSample_of_ready (st := { st with samplePort := [] }) x rfl hready, ?_⟩
  have hdrop : st.dropSample = { st with samplePort := rest } := by rw [State.dropSample, hport, List.tail_cons]
  rw [serveSample_of_ready hport hready, hdrop, acceptSample_with_agents x st rest st.host st.taken,
    acceptSample_with_agents x st [] st.host st.taken]

theorem step_of_sampleTurn {st : State} (hl : st.cfg.legal = true) (hturn : st.host = [] ∨ st.host.head? = some .sampleTurn) :
    step st = .next st.dropMove.serveSample := by
  rcases hturn with hnil | hhead
  · exact step_of_nil hl hnil
  · obtain ⟨rest, hcons⟩ := List.head?_eq_some_iff.1 hhead
    exact step_of_cons hl hcons

/-! ### The events of one SAMPLE (R48) -/

/-- `hook` is at most one hook event, and `last` at most one event of another kind. -/
structure HookThenOther (hook last : List Event) : Prop where
  hookLength : hook.length ≤ 1
  lastLength : last.length ≤ 1
  hookKind : ∀ e ∈ hook, e.isHook = true
  lastKind : ∀ e ∈ last, e.isHook = false

theorem HookThenOther.nil : HookThenOther [] [] := ⟨by simp, by simp, by simp, by simp⟩

theorem HookThenOther.pair {hook last : List Event} {a b : Event} (h : HookThenOther hook last) (heq : hook ++ last = [a, b]) :
    a.isHook = true ∧ b.isHook = false := by
  have hlen : hook.length + last.length = 2 := by rw [← List.length_append, heq]; rfl
  obtain ⟨hh, hl, hhook, hlast⟩ := h
  obtain ⟨rfl, rfl⟩ := List.append_inj (s₂ := [a]) (t₂ := [b]) heq (by rw [List.length_singleton]; omega)
  exact ⟨hhook a (List.mem_singleton_self a), hlast b (List.mem_singleton_self b)⟩

/-- Two events that are no hook events would both be the one in `last`. -/
theorem HookThenOther.eq_of_not_hook {hook last : List Event} {a b : Event} (h : HookThenOther hook last) (ha : a ∈ hook ++ last)
    (hb : b ∈ hook ++ last) (hna : a.isHook = false) (hnb : b.isHook = false) : a = b := by
  have hmem (e : Event) (he : e ∈ hook ++ last) (hne : e.isHook = false) : e ∈ last :=
    (List.mem_append.1 he).resolve_left fun hin => by simp [h.hookKind e hin] at hne
  have hpos : 1 ≤ last.length := List.length_pos_of_mem (hmem a ha hna)
  obtain ⟨c, rfl⟩ := List.length_eq_one_iff.1 (le_antisymm h.lastLength hpos)
  exact (List.mem_singleton.1 (hmem a ha hna)).trans (List.mem_singleton.1 (hmem b hb hnb)).symm

/-- The hook event of a classification, with what a full P emits behind it. -/
theorem hookThenOther_hookOutcome (h : HookState) (w : List Sample) {last : List Event} (hlen : last.length ≤ 1)
    (hkind : ∀ e ∈ last, e.isHook = false) : HookThenOther (hookOutcome h w).2 last := by
  obtain ⟨hhook, -⟩ := hookOutcome_snd h w
  refine ⟨hhook, hlen, ?_, hkind⟩
  rcases hookOutcome_cases h w with e | ⟨-, e⟩ | ⟨-, e⟩ <;> simp [e, Event.isHook]

theorem acceptSample_emits (v : Sample) (st : State) :
    ∃ hook last, (st.acceptSample v).out = st.out ++ (hook ++ last) ∧ HookThenOther hook last := by
  rcases acceptSample_cases v st with ⟨-, e⟩ | ⟨-, -, e⟩ | ⟨-, -, _, last, hlast, e⟩
  · exact ⟨[], [], by simp [e], .nil⟩
  · exact ⟨_, [.pause], by rw [e, List.append_assoc], hookThenOther_hookOutcome _ _ (by simp) (by simp [Event.isHook])⟩
  · refine ⟨_, last, by rw [e, List.append_assoc], hookThenOther_hookOutcome _ _ ?_ ?_⟩
    all_goals rcases hlast with ⟨-, -, rfl⟩ | ⟨-, -, rfl⟩ <;> simp [Event.isHook]

theorem serveSample_emits (st : State) :
    ∃ hook last, st.serveSample.out = st.out ++ (hook ++ last) ∧ HookThenOther hook last := by
  rcases serveSample_cases st with ⟨e, -⟩ | ⟨v, _, -, -, e⟩
  · exact ⟨[], [], by simp [e], .nil⟩
  · rw [e, ← State.dropSample_out]
    exact acceptSample_emits v st.dropSample

/-! ### The obligations -/

/-- Settles O15: every step of a block that waits since `st` leaves it waiting since `st`, so every run does. -/
theorem stoppedBlockWaitsForStart : Obligations.StoppedBlockWaitsForStart := by
  unfold Obligations.StoppedBlockWaitsForStart
  intro n st t hr hp hs ho hhost hrun
  have hstart : WaitsSince st st := ⟨hr, hp, hs, ho, rfl, List.prefix_rfl, hhost⟩
  obtain ⟨hr', hp', hs', ho', htaken, hport, -⟩ := runSteps_keeps (fun _ _ => step_waitsSince) n st t hstart hrun
  exact ⟨hr', hp', hs', ho', htaken, hport⟩

/-- Settles O13: a presented word and a boundary left to the port both are the port's turn, which takes the oldest waiting sample. -/
theorem samplesInArrivalOrder : Obligations.SamplesInArrivalOrder := by
  unfold Obligations.SamplesInArrivalOrder
  refine ⟨fun st t v x rest hport hready he => ?_, fun st hl hturn => ?_⟩
  · have hport' : (st.present v).samplePort = x :: (rest ++ [v]) := by rw [State.present_samplePort, hport, List.cons_append]
    obtain ⟨u, hu, hserve⟩ := serveSample_oldest hport' hready
    obtain rfl := Host.Outcome.next.inj (he.symm.trans hu)
    exact congrArg Host.Outcome.next hserve
  rw [step_of_sampleTurn hl hturn]
  refine ⟨fun x rest hport hready => ?_, fun hidle => congrArg Host.Outcome.next ?_⟩
  · obtain ⟨t, ht, hserve⟩ := serveSample_oldest (st := st.dropMove) hport hready
    exact ⟨t, ht, congrArg Host.Outcome.next hserve⟩
  · rcases hidle with hnil | hready
    · exact serveSample_of_nil (st := st.dropMove) hnil
    · exact serveSample_of_not_ready (st := st.dropMove) hready

/-- Settles O14: what the port's turn emits is at most one hook event and then at most one other; PAUSE and AMPS are both of the other
kind, and different. -/
theorem sampleEmitsAtMostTwo : Obligations.SampleEmitsAtMostTwo := by
  unfold Obligations.SampleEmitsAtMostTwo
  intro st v
  obtain ⟨hook, last, hout, h⟩ := serveSample_emits (st.present v)
  refine ⟨(st.present v).serveSample, hook ++ last, rfl, hout, ?_, fun a b => h.pair, ?_⟩
  · rw [List.length_append]
    exact Nat.add_le_add h.hookLength h.lastLength
  · rintro ⟨hpause, lanes, hamps⟩
    cases h.eq_of_not_hook hpause hamps rfl rfl

end Sys2Proof.Machine

/-! ## Proofs of the statements of 30_encoding.md -/

namespace Sys2Proof

/-! ### The fields of a word (R61) -/

theorem TxWord.op_toNat (w : TxWord) : w.op.toNat = w.toNat / 256 := by
  have hw : w.toNat < 2 ^ 10 := w.isLt
  rw [TxWord.op, BitVec.extractLsb'_toNat, Nat.shiftRight_eq_div_pow]
  omega

theorem TxWord.data_toNat (w : TxWord) : w.data.toNat = w.toNat % 256 := by
  rw [TxWord.data, BitVec.extractLsb'_toNat, Nat.shiftRight_zero]

theorem TxWord.op_cases (w : TxWord) : w.op = 0b00#2 ∨ w.op = 0b01#2 ∨ w.op = 0b10#2 ∨ w.op = 0b11#2 := by
  generalize w.op = op
  revert op
  decide

/-! ### The opcode map and the ports, one equation per `op` (R62 to R65) -/

theorem decode_of_op_sample {w : TxWord} (h : w.op = 0b00#2) : decode w = .sample w.data := by simp [decode, h]

theorem decode_of_op_start {w : TxWord} (h : w.op = 0b01#2) : decode w = .start := by simp [decode, h]

theorem decode_of_op_stop {w : TxWord} (h : w.op = 0b10#2) : decode w = .stop := by simp [decode, h]

theorem decode_of_op_rsvd {w : TxWord} (h : w.op = 0b11#2) : decode w = .rsvd := by simp [decode, h]

theorem portTransfer_of_op_sample {w : TxWord} (h : w.op = 0b00#2) : portTransfer w = .sample w.data := by
  rw [portTransfer, if_pos h]

theorem portTransfer_of_op_ne {w : TxWord} (h : w.op ≠ 0b00#2) : portTransfer w = .control w.op := by
  rw [portTransfer, if_neg h]

theorem portTransfer_of_op_eq {w : TxWord} {code : CtrlCode} (h : w.op = code) (hne : code ≠ 0b00#2) :
    portTransfer w = .control code := by
  subst h
  exact portTransfer_of_op_ne hne

/-- The block, which sees the port fields only, takes a word for what the opcode map says (R60). -/
theorem portTransfer_instr (w : TxWord) : (portTransfer w).instr = decode w := by
  rcases w.op_cases with h | h | h | h
  · rw [portTransfer_of_op_sample h, decode_of_op_sample h, PortTransfer.instr]
  · rw [portTransfer_of_op_eq h (by decide), decode_of_op_start h]
    rfl
  · rw [portTransfer_of_op_eq h (by decide), decode_of_op_stop h]
    rfl
  · rw [portTransfer_of_op_eq h (by decide), decode_of_op_rsvd h]
    rfl

/-- A word with op 00 is a transfer on the sample port, so no word drives the control code 0b00 (R64). -/
theorem portTransfer_ne_control_zero (w : TxWord) : portTransfer w ≠ .control 0b00#2 := by
  by_cases h : w.op = 0b00#2
  · rw [portTransfer_of_op_sample h]
    exact PortTransfer.noConfusion
  · rw [portTransfer_of_op_ne h]
    exact fun heq => h (PortTransfer.control.inj heq)

/-! ### The encoder (R70) -/

theorem decode_encode (i : Instr) : decode (encode i) = i := by
  cases i with
  | sample v => exact (Laws.RoundTrip.sample v).2
  | start => exact Laws.RoundTrip.start.2
  | stop => exact Laws.RoundTrip.stop.2
  | rsvd => exact Laws.RoundTrip.rsvd.2

theorem encode_decode_of_op_sample {w : TxWord} (h : w.op = 0b00#2) : encode (decode w) = w := by
  rw [decode_of_op_sample h, encode, ← h, ofFields_op_data]

theorem encode_decode_of_op_ne {w : TxWord} (h : w.op ≠ 0b00#2) : encode (decode w) = TxWord.ofFields w.op 0#8 := by
  rcases w.op_cases with h' | h' | h' | h'
  · exact absurd h' h
  · rw [decode_of_op_start h', h', encode]
  · rw [decode_of_op_stop h', h', encode]
  · rw [decode_of_op_rsvd h', h', encode]

/-! ### Programs as bits (R60, R73) -/

@[simp] theorem bitsOfWord_length (w : TxWord) : (bitsOfWord w).length = 10 := rfl

theorem decodeProgram_of_split {bits : List Bool} {ws : List TxWord} (h : splitWords bits = .ok ws) :
    decodeProgram bits = .ok (ws.map decode) := by
  rw [decodeProgram, h]

theorem decodeProgram_of_split_error {bits : List Bool} {e : DecodeError} (h : splitWords bits = .error e) :
    decodeProgram bits = .error e := by
  rw [decodeProgram, h]

/-- Word `i` of a bit string: bits 10·i to 10·i + 9. -/
def wordAt (bits : List Bool) (i : Nat) : TxWord := wordOfBits ((bits.drop (10 * i)).take 10)

/-- The whole words of a bit string, in order. -/
def wholeWords (bits : List Bool) : List TxWord := (List.range (bits.length / 10)).map (wordAt bits)

theorem wholeWords_length (bits : List Bool) : (wholeWords bits).length = bits.length / 10 := by
  rw [wholeWords, List.length_map, List.length_range]

theorem wholeWords_getElem? {bits : List Bool} {i : Nat} (h : i < bits.length / 10) :
    (wholeWords bits)[i]? = some (wordAt bits i) := by
  rw [wholeWords, List.getElem?_map, List.getElem?_range h, Option.map_some]

section
variable (b9 b8 b7 b6 b5 b4 b3 b2 b1 b0 : Bool) (rest : List Bool)

theorem length_ten_bits :
    (b9 :: b8 :: b7 :: b6 :: b5 :: b4 :: b3 :: b2 :: b1 :: b0 :: rest).length = rest.length + 10 := rfl

theorem wholeWords_ten_bits :
    wholeWords (b9 :: b8 :: b7 :: b6 :: b5 :: b4 :: b3 :: b2 :: b1 :: b0 :: rest) =
      wordOfBits [b9, b8, b7, b6, b5, b4, b3, b2, b1, b0] :: wholeWords rest := by
  rw [wholeWords, length_ten_bits, Nat.add_div_right _ (by decide), List.range_succ_eq_map, List.map_cons, List.map_map]
  rfl

end

theorem length_lt_ten_of_ne_ten_bits {bits : List Bool}
    (h : ∀ b9 b8 b7 b6 b5 b4 b3 b2 b1 b0 rest, bits ≠ b9 :: b8 :: b7 :: b6 :: b5 :: b4 :: b3 :: b2 :: b1 :: b0 :: rest) :
    bits.length < 10 := by
  by_contra hlen
  refine h bits[0] bits[1] bits[2] bits[3] bits[4] bits[5] bits[6] bits[7] bits[8] bits[9] (bits.drop 10) ?_
  simp only [List.getElem_cons_drop, List.drop_zero]

/-- Splitting a program in closed form: all its words if 10 divides its length, else the number of bits left over. -/
theorem splitWords_eq (bits : List Bool) :
    splitWords bits =
      if bits.length % 10 = 0 then .ok (wholeWords bits) else .error (.leftover (bits.length % 10)) := by
  fun_induction splitWords bits with
  | case1 => rfl
  | case2 b9 b8 b7 b6 b5 b4 b3 b2 b1 b0 rest ws hrest ih =>
    rw [length_ten_bits, Nat.add_mod_right, wholeWords_ten_bits]
    rw [hrest] at ih
    split at ih
    next hrem => rw [if_pos hrem, Except.ok.inj ih]
    next => cases ih
  | case3 b9 b8 b7 b6 b5 b4 b3 b2 b1 b0 rest e hrest ih =>
    rw [length_ten_bits, Nat.add_mod_right]
    rw [hrest] at ih
    split at ih
    next => cases ih
    next hrem => rw [if_neg hrem, Except.error.inj ih]
  | case4 few hnil hten =>
    have hlt : few.length < 10 := length_lt_ten_of_ne_ten_bits hten
    rw [Nat.mod_eq_of_lt hlt, if_neg fun hzero => hnil (List.eq_nil_of_length_eq_zero hzero)]

theorem splitWords_bitsOfWord_append {w : TxWord} {rest : List Bool} {ws : List TxWord} (h : splitWords rest = .ok ws) :
    splitWords (bitsOfWord w ++ rest) = .ok (w :: ws) := by
  have hword : splitWords (bitsOfWord w ++ rest) = .ok (wordOfBits (bitsOfWord w) :: ws) := by
    simp only [bitsOfWord, List.cons_append, List.nil_append, splitWords, h]
  rw [hword, wordOfBits_bitsOfWord]

/-- The bits of a program are split into the words of its transactions. -/
theorem splitWords_encodeProgram (is : List Instr) : splitWords (encodeProgram is) = .ok (is.map encode) := by
  induction is with
  | nil => rfl
  | cons i is ih => exact splitWords_bitsOfWord_append ih

theorem encodeProgram_length (is : List Instr) : (encodeProgram is).length = 10 * is.length := by
  simp [encodeProgram, List.length_flatMap, Nat.mul_comm]

theorem decodeProgram_encodeProgram (is : List Instr) : decodeProgram (encodeProgram is) = .ok is := by
  have hid : decode ∘ encode = id := funext decode_encode
  rw [decodeProgram_of_split (splitWords_encodeProgram is), List.map_map, hid, List.map_id]

end Sys2Proof

namespace Sys2Proof.Machine

/-! ### The move taken, the effect of RSVD, and the event port -/

theorem dropMove_of_cons {st : State} {m : HostMove} {rest : List HostMove} (h : st.host = m :: rest) :
    st.dropMove = { st with host := rest } := by
  rw [State.dropMove, h, List.tail_cons]

theorem exec_rsvd (st : State) : exec .rsvd st = .next st.setErr := rfl

theorem eventPort_of_cons {st : State} {e : Event} {rest : List Event} (h : st.out = e :: rest) :
    st.eventPort = some (e.eType, e.eAmp) := by
  rw [State.eventPort, h]
  rfl

theorem eValid_iff (st : State) : st.eValid = true ↔ st.out ≠ [] := by
  simp [State.eValid]

/-! ### Assembly lines (R71, R72) -/

theorem assemble_singleton (line : AsmLine) : assemble [line] = line.words := List.flatMap_singleton AsmLine.words line

theorem assemble_replicate_sample (v : Sample) (n : Nat) :
    assemble (List.replicate n (.sample v)) = List.replicate n (encode (.sample v)) := by
  induction n with
  | zero => rfl
  | succ n ih => exact congrArg (encode (.sample v) :: ·) ih

/-! ### The obligations -/

/-- Settles O23: each word's ten bits split off as that word, and each word decodes to its transaction. -/
theorem programRoundTrip : Obligations.ProgramRoundTrip := by
  unfold Obligations.ProgramRoundTrip
  exact fun is => ⟨decodeProgram_encodeProgram is, encodeProgram_length is⟩

/-- Settles O24: `splitWords_eq` gives the split in closed form, and word i of it is the one at bits 10·i to 10·i + 9. -/
theorem programSplitsEveryTenBits : Obligations.ProgramSplitsEveryTenBits := by
  unfold Obligations.ProgramSplitsEveryTenBits
  refine fun bits => ⟨fun h => ?_, fun h => ?_⟩
  · have hsplit : splitWords bits = .ok (wholeWords bits) := by rw [splitWords_eq, if_pos h]
    refine ⟨(wholeWords bits).map decode, decodeProgram_of_split hsplit, ?_, fun i hi => ?_⟩
    · rw [List.length_map, wholeWords_length]
    · rw [List.getElem?_map, wholeWords_getElem? hi, Option.map_some, wordAt]
  · exact decodeProgram_of_split_error (by rw [splitWords_eq, if_neg h])

/-- Settles O16: the step takes the move and runs it, and the port fields name the transaction by `portTransfer_instr`. -/
theorem stepRunsDecodedWord : Obligations.StepRunsDecodedWord := by
  unfold Obligations.StepRunsDecodedWord
  refine ⟨fun st w rest hl hhost => ?_, portTransfer_instr⟩
  rw [step_of_cons hl hhost, dropMove_of_cons hhost, runMove]

/-- Settles O17: op 00 carries the data field, which is the word modulo 256. -/
theorem sampleWordCarriesSample : Obligations.SampleWordCarriesSample := by
  unfold Obligations.SampleWordCarriesSample
  intro w h
  have hdecode : decode w = .sample w.data := decode_of_op_sample h
  exact ⟨w.data, hdecode, portTransfer_of_op_sample h, rfl, w.data_toNat, by rw [hdecode, Instr.wellFormed]⟩

/-- Settles O18: neither the opcode map nor the control port reads the data field. -/
theorem controlWordIgnoresData : Obligations.ControlWordIgnoresData := by
  unfold Obligations.ControlWordIgnoresData
  exact ⟨fun w h => ⟨decode_of_op_start h, portTransfer_of_op_eq h (by decide)⟩,
    fun w h => ⟨decode_of_op_stop h, portTransfer_of_op_eq h (by decide)⟩, rfl, rfl⟩

/-- Settles O19: both codes mean RSVD, whose effect is `setErr`. -/
theorem reservedCodesSetErr : Obligations.ReservedCodesSetErr := by
  unfold Obligations.ReservedCodesSetErr
  exact ⟨fun w h => ⟨decode_of_op_rsvd h, portTransfer_of_op_eq h (by decide)⟩, portTransfer_ne_control_zero,
    fun st => ⟨exec_rsvd st, exec_rsvd st⟩⟩

/-- Settles O20: the quotient by 256 is the op field and the remainder the data field, and the map has one equation per op. -/
theorem decodeIsTotalByOp : Obligations.DecodeIsTotalByOp := by
  unfold Obligations.DecodeIsTotalByOp
  intro w
  rw [← w.op_toNat, ← w.data_toNat, BitVec.ofNat_toNat, BitVec.setWidth_eq]
  rcases w.op_cases with h | h | h | h
  · rw [decode_of_op_sample h, portTransfer_of_op_sample h, h]
    rfl
  · rw [decode_of_op_start h, portTransfer_of_op_eq h (by decide), h]
    rfl
  · rw [decode_of_op_stop h, portTransfer_of_op_eq h (by decide), h]
    rfl
  · rw [decode_of_op_rsvd h, portTransfer_of_op_eq h (by decide), h]
    rfl

/-- Settles O21: nine closed words, evaluated. -/
theorem writtenWordsDecode : Obligations.WrittenWordsDecode := by
  unfold Obligations.WrittenWordsDecode
  decide

/-- Settles O22: `decode_encode`, and the encoder writes back the op field and, for op 00 only, the data field. -/
theorem decodeEncodeAgree : Obligations.DecodeEncodeAgree := by
  unfold Obligations.DecodeEncodeAgree
  refine ⟨fun i _ => decode_encode i, fun w => ?_⟩
  split
  next h => exact encode_decode_of_op_sample h
  next h => exact encode_decode_of_op_ne h

/-- Settles O25: the port shows the type and the lanes of the head, whatever its kind. -/
theorem eventPortShowsHead : Obligations.EventPortShowsHead := by
  unfold Obligations.EventPortShowsHead
  refine ⟨eValid_iff, fun st e rest h => ?_⟩
  rw [eventPort_of_cons h]
  refine ⟨?_, ?_, ?_, ?_⟩
  · rintro lanes rfl
    rfl
  all_goals
    rintro rfl
    rfl

/-- Settles O26: the step takes the move and runs the transfer, which reads OUT. -/
theorem consumerTakesHead : Obligations.ConsumerTakesHead := by
  unfold Obligations.ConsumerTakesHead
  intro st rest hl hhost
  rw [step_of_cons hl hhost, dropMove_of_cons hhost, runMove]
  exact ⟨fun e es hout => congrArg Host.Outcome.next (takeHead_of_cons hout),
    fun hout => congrArg Host.Outcome.next (takeHead_of_nil hout)⟩

/-- Settles O27: a line's words by definition, and the words of n SAMPLE lines by `assemble_replicate_sample`. -/
theorem assemblerWords : Obligations.AssemblerWords := by
  unfold Obligations.AssemblerWords
  refine ⟨fun v => rfl, rfl, rfl, rfl, fun v n => ?_, fun p s d => rfl, rfl⟩
  rw [assemble_singleton, assemble_replicate_sample, AsmLine.words]

end Sys2Proof.Machine

/-! ## Proofs of the statements of 40_window_manager.md -/

namespace Sys2Proof.Machine

/-! ### SAMPLE in a ready block with nothing waiting (R100, R101) -/

theorem exec_sample_of_ready {st : State} (v : Sample) (hready : st.sReady = true) (hport : st.samplePort = []) :
    exec (.sample v) st = .next (st.acceptSample v) :=
  execSample_of_ready v hport hready

theorem sReady_of_infinite {st : State} (hrun : st.run = .running) (hdepth : st.cfg.outDepth = none) : st.sReady = true :=
  (sReady_iff st).2 ⟨hrun, by simp [hdepth]⟩

theorem execStart_of_stopped {st : State} (hrun : st.run = .stopped) : execStart st = .next (st.setRun .running).clearWindows := by
  rw [execStart, hrun]

theorem takeHead_out (st : State) : st.takeHead.out = st.out.tail := by rw [takeHead_eq]

theorem takeHead_cfg (st : State) : st.takeHead.cfg = st.cfg := by rw [takeHead_eq]

/-! ### The classification of a full P (R103 to R107) -/

theorem silent_eq_false_iff (w : List Sample) :
    silent w = false ↔ ¬ (w.length * windowSumSq w : ℤ) - (windowSum w : ℤ) ^ 2 ≤ (w.length : ℤ) ^ 2 := by
  rw [← silent_iff, Bool.not_eq_true]

/-- One sample has the mean itself as its value, so its deviation is 0. -/
theorem silent_singleton (x : Sample) : silent [x] = true := by
  rw [silent_iff]
  simp [windowSum, windowSumSq]

theorem hookOutcome_isHook (h : HookState) (w : List Sample) : ∀ e ∈ (hookOutcome h w).2, e.isHook = true :=
  (hookThenOther_hookOutcome h w (last := []) (by simp) (by simp)).hookKind

theorem isAmps_eq_false_of_isHook {e : Event} (h : e.isHook = true) : e.isAmps = false := by
  cases e with
  | amps | pause => cases h
  | offHook | onHook => rfl

theorem countP_isAmps_of_isHook {es : List Event} (h : ∀ e ∈ es, e.isHook = true) : es.countP Event.isAmps = 0 :=
  List.countP_eq_zero.2 fun e he => by simp [isAmps_eq_false_of_isHook (h e he)]

theorem pause_notMem_of_isHook {es : List Event} (h : ∀ e ∈ es, e.isHook = true) : Event.pause ∉ es :=
  fun hmem => Bool.false_ne_true (h _ hmem)

/-- From a full P the migration moves m samples (R105). -/
theorem migrateLoop_of_full {st : State} (hfull : st.p.length = st.cfg.pcap) :
    migrateLoop st.cfg.pcap st.cfg.scap st.p st.s =
      (st.p.drop (migrationCount st), st.s ++ st.p.take (migrationCount st)) := by
  rw [migrateLoop_eq, hfull, migrationCount]

theorem length_append_take_migrationCount {st : State} (hfull : st.p.length = st.cfg.pcap) :
    (st.s ++ st.p.take (migrationCount st)).length = st.s.length + migrationCount st := by
  rw [List.length_append, List.length_take, migrationCount]
  omega

/-- A tone whose m samples do not fill S. -/
theorem acceptSample_migrate_of_full {st : State} (v : Sample) (hfull : st.p.length = st.cfg.pcap) (htone : silent st.p = false)
    (hroom : st.s.length + migrationCount st < st.cfg.scap) :
    st.acceptSample v =
      { st with p := st.p.drop (migrationCount st) ++ [v], s := st.s ++ st.p.take (migrationCount st),
                hook := (hookOutcome st.hook st.p).1, out := st.out ++ (hookOutcome st.hook st.p).2 } := by
  have hloop := migrateLoop_of_full hfull
  have hlen := length_append_take_migrationCount hfull
  rw [acceptSample_migrate v hfull.not_lt htone (by rw [hloop, hlen]; exact hroom.ne), hloop]

/-- A tone whose m samples fill S. -/
theorem acceptSample_evaluate_of_full {st : State} (v : Sample) (hfull : st.p.length = st.cfg.pcap) (htone : silent st.p = false)
    (hfill : st.s.length + migrationCount st = st.cfg.scap) :
    st.acceptSample v =
      { st with p := st.p.drop (migrationCount st) ++ [v],
                s := (st.s ++ st.p.take (migrationCount st)).drop (st.cfg.scap - 3 * st.cfg.scap / 4),
                hook := (hookOutcome st.hook st.p).1,
                out := st.out ++ (hookOutcome st.hook st.p).2 ++
                  [.amps (analyze st.cfg.ampTol (st.s ++ st.p.take (migrationCount st)))] } := by
  have hloop := migrateLoop_of_full hfull
  have hlen := (length_append_take_migrationCount hfull).trans hfill
  rw [acceptSample_evaluate v hfull.not_lt htone (by rw [hloop, hlen]), hloop, trimLoop_eq, hlen]

theorem trimLoop_suffix (scap : Nat) (s : List Sample) : trimLoop scap s <:+ s := by
  rw [trimLoop_eq]
  exact List.drop_suffix _ s

/-- Samples leave S and P only at the front, and the new one enters P at the back (R108, I4 of R31). -/
theorem acceptSample_windows (v : Sample) (st : State) :
    (st.acceptSample v).s ++ (st.acceptSample v).p <:+ st.s ++ st.p ++ [v] ∧ (st.acceptSample v).p.getLast? = some v := by
  have hmoved : (migrateLoop st.cfg.pcap st.cfg.scap st.p st.s).2 ++ ((migrateLoop st.cfg.pcap st.cfg.scap st.p st.s).1 ++ [v]) =
      st.s ++ st.p ++ [v] := by
    rw [← List.append_assoc, migrateLoop_append]
  rcases acceptSample_cases v st with ⟨-, e⟩ | ⟨-, -, e⟩ | ⟨-, -, s', _, hs', e⟩
  · exact ⟨by simp [e], by simp [e]⟩
  · rw [e]
    exact ⟨List.suffix_append (st.s ++ st.p) [v], rfl⟩
  · refine ⟨?_, by simp [e]⟩
    rw [e, ← hmoved]
    rcases hs' with ⟨rfl, -, -⟩ | ⟨rfl, -, -⟩
    · exact List.suffix_rfl
    · exact (List.suffix_append_inj_of_length_eq rfl).2 ⟨trimLoop_suffix _ _, rfl⟩

/-! ### A host that presents samples (R60, R62) -/

/-- The block is ready, nothing waits at the sample port, and the host is about to present the samples `vs` and then nothing. -/
structure Presents (st : State) (vs : List Sample) : Prop where
  legal : st.cfg.legal = true
  ready : st.sReady = true
  port : st.samplePort = []
  host : st.host = sampleMoves vs

theorem presents_of_infinite {st : State} {vs : List Sample} (hl : st.cfg.legal = true) (hdepth : st.cfg.outDepth = none)
    (hrun : st.run = .running) (hport : st.samplePort = []) (hhost : st.host = sampleMoves vs) : Presents st vs :=
  ⟨hl, sReady_of_infinite hrun hdepth, hport, hhost⟩

theorem Presents.running {st : State} {vs : List Sample} (h : Presents st vs) : st.run = .running :=
  ((sReady_iff st).1 h.ready).1

theorem acceptSample_with_host (v : Sample) (st : State) (host : List HostMove) :
    { st with host := host }.acceptSample v = { st.acceptSample v with host := host } := by
  simpa using acceptSample_with_agents v st st.samplePort host st.taken

/-- The step accepts the next sample. -/
theorem Presents.step_eq {st : State} {v : Sample} {vs : List Sample} (h : Presents st (v :: vs)) :
    step st = .next { st.acceptSample v with host := sampleMoves vs } := by
  have haccept : exec (.sample v) st.dropMove = .next (st.dropMove.acceptSample v) := exec_sample_of_ready v h.ready h.port
  rw [step_of_cons h.legal h.host, runMove, decode_encode, haccept, dropMove_of_cons h.host]
  exact congrArg Host.Outcome.next (acceptSample_with_host v st (sampleMoves vs))

/-- The step appends the next sample while P has room for it (R102). -/
theorem Presents.step_append {st : State} {v : Sample} {vs : List Sample} (h : Presents st (v :: vs))
    (hroom : st.p.length < st.cfg.pcap) : step st = .next { st with p := st.p ++ [v], host := sampleMoves vs } := by
  rw [h.step_eq, acceptSample_append v hroom]

/-- With OUT_DEPTH = ∞ the block is ready again after the step. -/
theorem Presents.next_of_infinite {st : State} {v : Sample} {vs : List Sample} (h : Presents st (v :: vs))
    (hdepth : st.cfg.outDepth = none) : Presents { st.acceptSample v with host := sampleMoves vs } vs :=
  presents_of_infinite (by simp [h.legal]) (by simp [hdepth]) (by simp [h.running]) (by simp [h.port]) rfl

theorem runSteps_succ_of_last {st u t : State} {n : Nat} (hrun : runSteps n st = .next u) (hstep : step u = .next t) :
    runSteps (n + 1) st = .next t := by
  rw [runSteps_add n 1 hrun, runSteps_succ_of_next 0 hstep, runSteps_zero]

/-- Samples that P has room for are appended one after another, and nothing else changes (R102). -/
theorem runSteps_append {vs rest : List Sample} :
    ∀ {st : State}, Presents st (vs ++ rest) → st.p.length + vs.length ≤ st.cfg.pcap →
      runSteps vs.length st = .next { st with p := st.p ++ vs, host := sampleMoves rest } := by
  induction vs with
  | nil =>
    intro st h _
    rw [List.length_nil, runSteps_zero, List.append_nil, ← List.nil_append rest, ← h.host]
  | cons v vs ih =>
    intro st h hroom
    rw [List.cons_append] at h
    rw [List.length_cons] at hroom
    have hlen : (st.p ++ [v]).length + vs.length ≤ st.cfg.pcap := by
      rw [List.length_append, List.length_singleton]
      omega
    rw [List.length_cons, runSteps_succ_of_next _ (h.step_append (by omega)),
      ih (st := { st with p := st.p ++ [v], host := sampleMoves (vs ++ rest) }) ⟨h.legal, h.ready, h.port, rfl⟩ hlen]
    simp

/-! ### Continuing silence (R110) -/

/-- A full silent P and 1 to PCAP samples more: the first of them classifies P, and they are the new P. -/
theorem runSteps_silence {st : State} {w rest : List Sample} (h : Presents st (w ++ rest)) (hdepth : st.cfg.outDepth = none)
    (hfull : st.p.length = st.cfg.pcap) (hsilent : silent st.p = true) (hpos : 1 ≤ w.length) (hw : w.length ≤ st.cfg.pcap) :
    runSteps w.length st =
      .next { st with p := w, s := [], hook := (hookOutcome st.hook st.p).1,
                      out := st.out ++ (hookOutcome st.hook st.p).2 ++ [.pause], host := sampleMoves rest } := by
  obtain ⟨v, vs, rfl⟩ := List.exists_cons_of_length_pos hpos
  have hstep := Presents.step_eq h
  have hnext := Presents.next_of_infinite h hdepth
  rw [acceptSample_silence v hfull.not_lt hsilent] at hstep hnext
  rw [List.length_cons, runSteps_succ_of_next _ hstep, runSteps_append hnext (by simpa [Nat.add_comm] using hw)]
  rfl

theorem steps_of_blocks_cons {b : List Sample} {n : Nat} (blocks : List (List Sample)) (rest : List Sample) (hb : b.length = n) :
    (b :: blocks).length * n + rest.length = b.length + (blocks.length * n + rest.length) := by
  rw [List.length_cons, hb]
  ring

/-- A full silent P, then silent blocks of PCAP samples, then 1 to PCAP samples more. -/
theorem runSteps_silent_blocks {blocks : List (List Sample)} {rest : List Sample} :
    ∀ {st : State}, Presents st (blocks.flatten ++ rest) → st.cfg.outDepth = none → st.p.length = st.cfg.pcap →
      silent st.p = true → (∀ b ∈ blocks, b.length = st.cfg.pcap ∧ silent b = true) → 1 ≤ rest.length →
      rest.length ≤ st.cfg.pcap →
      runSteps (blocks.length * st.cfg.pcap + rest.length) st =
        .next { st with p := rest, s := [], hook := (silenceOutcome st.hook (st.p :: blocks)).1,
                        out := st.out ++ (silenceOutcome st.hook (st.p :: blocks)).2, host := [] } := by
  induction blocks with
  | nil =>
    intro st h hdepth hfull hsilent _ hpos hrest
    rw [List.length_nil, Nat.zero_mul, Nat.zero_add,
      runSteps_silence (rest := []) (by simpa using h) hdepth hfull hsilent hpos hrest]
    simp [sampleMoves]
  | cons b blocks ih =>
    intro st h hdepth hfull hsilent hblocks hpos hrest
    obtain ⟨⟨hb, hbsilent⟩, hblocks'⟩ := List.forall_mem_cons.1 hblocks
    rw [List.flatten_cons, List.append_assoc] at h
    have hrun := runSteps_silence h hdepth hfull hsilent (by omega) hb.le
    rw [steps_of_blocks_cons blocks rest hb, runSteps_add _ _ hrun, ih (st := { st with
        p := b, s := [], hook := (hookOutcome st.hook st.p).1, out := st.out ++ (hookOutcome st.hook st.p).2 ++ [.pause],
        host := sampleMoves (blocks.flatten ++ rest) })
      (presents_of_infinite h.legal hdepth h.running h.port rfl) hdepth hb hbsilent hblocks' hpos hrest]
    simp

/-! ### The tone of the reference configuration (R110, R226) -/

/-- A block with PCAP = 67, SCAP = 288 and OUT_DEPTH = ∞ after the first `n` samples of the tone `vs`: S and P hold all of them, OUT
holds hook events only, and 17 samples have moved at sample 68 and at every 17th sample after it. -/
structure ToneRun (vs : List Sample) (n : Nat) (u : State) : Prop where
  pcap : u.cfg.pcap = 67
  scap : u.cfg.scap = 288
  infinite : u.cfg.outDepth = none
  presents : Presents u (vs.drop n)
  windows : u.s ++ u.p = vs.take n
  sLength : u.s.length = 17 * ((n - 51) / 17)
  events : ∀ e ∈ u.out, e.isHook = true

theorem ToneRun.pLength {vs : List Sample} {n : Nat} {u : State} (h : ToneRun vs n u) (hn : n ≤ vs.length) :
    u.p.length = n - 17 * ((n - 51) / 17) := by
  have hlen : u.s.length + u.p.length = n := by
    rw [← List.length_append, h.windows, List.length_take, min_eq_left hn]
  rw [← h.sLength]
  omega

/-- A full P is 67 samples of the tone in a row. -/
theorem ToneRun.p_eq {vs : List Sample} {n : Nat} {u : State} (h : ToneRun vs n u) (hn : n ≤ vs.length) (hfull : u.p.length = 67) :
    u.p = (vs.drop u.s.length).take 67 := by
  have hlen := h.pLength hn
  have hrest : n - u.s.length = 67 := by
    rw [h.sLength]
    omega
  rw [← hrest, ← List.drop_take, ← h.windows, List.drop_left]

theorem ToneRun.presents_cons {vs : List Sample} {n : Nat} {u : State} (h : ToneRun vs n u) (hn : n < vs.length) :
    Presents u (vs[n] :: vs.drop (n + 1)) := by
  rw [← List.drop_eq_getElem_cons hn]
  exact h.presents

theorem ToneRun.step_eq {vs : List Sample} {n : Nat} {u : State} (h : ToneRun vs n u) (hn : n < vs.length) :
    step u = .next { u.acceptSample vs[n] with host := sampleMoves (vs.drop (n + 1)) } :=
  (h.presents_cons hn).step_eq

/-- No 67 samples of `vs` in a row are silent. -/
def IsTone (vs : List Sample) : Prop := ∀ i, i + 67 ≤ vs.length → silent ((vs.drop i).take 67) = false

theorem ToneRun.not_silent {vs : List Sample} {n : Nat} {u : State} (h : ToneRun vs n u) (htone : IsTone vs) (hn : n ≤ vs.length)
    (hfull : u.p.length = 67) : silent u.p = false := by
  have hlen := h.pLength hn
  rw [h.p_eq hn hfull]
  refine htone _ ?_
  rw [h.sLength]
  omega

theorem ToneRun.migrationCount_eq {vs : List Sample} {n : Nat} {u : State} (h : ToneRun vs n u) :
    migrationCount u = min 17 (288 - u.s.length) := by
  rw [migrationCount, h.pcap, h.scap]

/-- Up to sample 339 the migrations leave S below its capacity. -/
theorem ToneRun.next {vs : List Sample} {n : Nat} {u : State} (h : ToneRun vs n u) (htone : IsTone vs) (hn : n < vs.length)
    (hlt : n < 339) : ToneRun vs (n + 1) { u.acceptSample vs[n] with host := sampleMoves (vs.drop (n + 1)) } := by
  have hp := h.pLength hn.le
  have hs := h.sLength
  have hpresents := (h.presents_cons hn).next_of_infinite h.infinite
  have htake : vs.take (n + 1) = u.s ++ u.p ++ [vs[n]] := by rw [h.windows, List.take_append_getElem hn]
  by_cases hroom : u.p.length < 67
  · rw [acceptSample_append vs[n] (by rwa [h.pcap])] at hpresents ⊢
    exact ⟨h.pcap, h.scap, h.infinite, hpresents, by simp [htake], hs.trans (by omega), h.events⟩
  · have hfull : u.p.length = 67 := by omega
    have hm : migrationCount u = 17 := by
      rw [h.migrationCount_eq]
      omega
    rw [acceptSample_migrate_of_full vs[n] (by rw [h.pcap, hfull]) (h.not_silent htone hn.le hfull) (by rw [h.scap]; omega), hm]
      at hpresents ⊢
    refine ⟨h.pcap, h.scap, h.infinite, hpresents, ?_, ?_, ?_⟩
    · simp only [htake, List.append_assoc, ← List.append_assoc (u.p.take 17), List.take_append_drop]
    · simp only [List.length_append, List.length_take]
      omega
    · exact List.forall_mem_append.2 ⟨h.events, hookOutcome_isHook _ _⟩

theorem runSteps_toneRun {st : State} {vs : List Sample} (h : ToneRun vs 0 st) (htone : IsTone vs) :
    ∀ n, n < vs.length → n ≤ 339 → ∃ u, runSteps n st = .next u ∧ ToneRun vs n u := by
  intro n
  induction n with
  | zero => exact fun _ _ => ⟨st, rfl, h⟩
  | succ n ih =>
    intro hn hle
    obtain ⟨u, hrun, hu⟩ := ih (by omega) (by omega)
    exact ⟨_, runSteps_succ_of_last hrun (hu.step_eq (by omega)), hu.next htone (by omega) (by omega)⟩

/-- Sample 340 classifies a full P and fills S: 272 samples and the 16 that it has room for. -/
theorem ToneRun.acceptSample_evaluates {vs : List Sample} {u : State} (h : ToneRun vs 339 u) (htone : IsTone vs)
    (hlen : 339 ≤ vs.length) (v : Sample) :
    (u.acceptSample v).s.length = 216 ∧
      ∃ hook lanes, (∀ e ∈ hook, e.isHook = true) ∧ (u.acceptSample v).out = hook ++ [.amps lanes] := by
  have hs : u.s.length = 272 := h.sLength
  have hfull : u.p.length = 67 := h.pLength hlen
  have hm : migrationCount u = 16 := by simp [h.migrationCount_eq, hs]
  rw [acceptSample_evaluate_of_full v (by rw [h.pcap, hfull]) (h.not_silent htone hlen hfull) (by rw [h.scap, hs, hm]), hm]
  refine ⟨?_, _, _, List.forall_mem_append.2 ⟨h.events, hookOutcome_isHook _ _⟩, rfl⟩
  simp [h.scap, hs, hfull]

/-! ### The obligations -/

/-- Settles O28: START empties the windows of a block whose OUT is empty, and a transfer frees one place. -/
theorem sampleHeldUnlessReady : Obligations.SampleHeldUnlessReady := by
  unfold Obligations.SampleHeldUnlessReady
  refine ⟨sReady_iff, fun st v => execSample_of_not_ready v, fun st hinv hrun => ?_, fun st d hrun hd hpos hroom => ?_⟩
  · obtain ⟨-, -, hdepth, -⟩ := (Config.legal_iff _).1 hinv.legalConfig
    obtain ⟨-, -, hout⟩ := hinv.stopped hrun
    exact ⟨_, execStart_of_stopped hrun, (sReady_iff _).2 ⟨rfl, by simpa [hout] using hdepth⟩⟩
  · refine (sReady_iff _).2 ⟨by rw [takeHead_run, hrun], fun d' hd' => ?_⟩
    rw [takeHead_cfg, hd, Option.some.injEq] at hd'
    rw [takeHead_out, List.length_tail]
    omega

/-- Settles O29: it is the first branch of R109. -/
theorem sampleAppendsWhenNotFull : Obligations.SampleAppendsWhenNotFull := by
  unfold Obligations.SampleAppendsWhenNotFull
  intro st v hready hport hroom
  rw [exec_sample_of_ready v hready hport, acceptSample_append v hroom]

/-- Settles O30: the test of R122 is `silent`. -/
theorem sampleFullSilence : Obligations.SampleFullSilence := by
  unfold Obligations.SampleFullSilence
  intro st v hready hport hfull hsilent
  rw [exec_sample_of_ready v hready hport, acceptSample_silence v hfull.not_lt ((silent_iff _).2 hsilent)]

/-- Settles O31: from a full P the migration loop moves m samples, after which S is not full. -/
theorem sampleFullToneMigrates : Obligations.SampleFullToneMigrates := by
  unfold Obligations.SampleFullToneMigrates
  intro st v hready hport hfull htone hroom
  rw [exec_sample_of_ready v hready hport, acceptSample_migrate_of_full v hfull ((silent_eq_false_iff _).2 htone) hroom]

/-- Settles O32: from a full P the migration loop moves m samples, after which S is full, is evaluated once and is trimmed. -/
theorem sampleFullToneEvaluates : Obligations.SampleFullToneEvaluates := by
  unfold Obligations.SampleFullToneEvaluates
  intro st v hready hport hfull htone hfill
  rw [exec_sample_of_ready v hready hport, acceptSample_evaluate_of_full v hfull ((silent_eq_false_iff _).2 htone) hfill]

/-- Settles O33: migration keeps S followed by P, and clearing and trimming discard from the front. -/
theorem acceptedSampleIsKept : Obligations.AcceptedSampleIsKept := by
  unfold Obligations.AcceptedSampleIsKept
  intro st v hready hport
  obtain ⟨hsuffix, hlast⟩ := acceptSample_windows v st
  exact ⟨_, exec_sample_of_ready v hready hport, hsuffix, hlast, by rw [acceptSample_samplePort, hport]⟩

/-- Settles O34: PCAP samples fill P, and the next one meets a full P, where the outcome of `silent` decides between the cases. -/
theorem firstClassificationAfterPcap : Obligations.FirstClassificationAfterPcap := by
  unfold Obligations.FirstClassificationAfterPcap
  intro st vs v hl hready hport hp hlen hhost
  have hrun := runSteps_append (rest := [v]) ⟨hl, hready, hport, hhost⟩ (by simp [hp, hlen])
  rw [hp, List.nil_append] at hrun
  have hlast := runSteps_succ_of_last hrun (Presents.step_eq (v := v) (vs := []) ⟨hl, hready, hport, rfl⟩)
  refine ⟨hrun, ?_⟩
  rcases acceptSample_cases v { st with p := vs, host := sampleMoves [v] } with
    ⟨hlt, -⟩ | ⟨-, hsilent, e⟩ | ⟨-, htone, s', last, hs', e⟩
  · exact absurd hlen hlt.ne
  · rw [e] at hlast
    exact ⟨_, _, hlast, rfl, rfl, fun _ => ⟨rfl, rfl, rfl⟩, fun h => absurd (h.symm.trans hsilent) (by decide)⟩
  · rw [e, migrateLoop_of_full hlen] at hlast
    refine ⟨_, last, hlast, rfl, rfl, fun h => absurd (h.symm.trans htone) (by decide), fun _ => ⟨rfl, ?_⟩⟩
    rcases hs' with ⟨-, -, rfl⟩ | ⟨-, -, rfl⟩ <;> simp

/-- Settles O35: the first block fills P, and each later sample that meets a full P classifies a silent block. -/
theorem silenceCadence : Obligations.SilenceCadence := by
  unfold Obligations.SilenceCadence
  intro st blocks rest hl hdepth hrun hport hp hblocks hpos hrest hhost
  have hpresents : Presents st (blocks.flatten ++ rest) := presents_of_infinite hl hdepth hrun hport hhost
  cases blocks with
  | nil =>
    have hfill := runSteps_append (vs := rest) (rest := []) (by simpa using hpresents) (by simpa [hp] using hrest)
    simpa [hp, sampleMoves] using hfill
  | cons b blocks =>
    obtain ⟨⟨hb, hsilent⟩, hblocks'⟩ := List.forall_mem_cons.1 hblocks
    rw [List.flatten_cons, List.append_assoc] at hpresents
    have hfill := runSteps_append hpresents (by simp [hp, hb])
    rw [hp, List.nil_append] at hfill
    rw [steps_of_blocks_cons blocks rest hb, runSteps_add _ _ hfill,
      runSteps_silent_blocks (st := { st with p := b, host := sampleMoves (blocks.flatten ++ rest) })
        (presents_of_infinite hl hdepth hrun hport rfl) hdepth hb hsilent hblocks' hpos hrest]
    simp

/-- Settles O36: 339 samples keep `ToneRun`, with S at 272 and P full, and sample 340 evaluates. -/
theorem referenceFirstAmpsAtSample340 : Obligations.ReferenceFirstAmpsAtSample340 := by
  unfold Obligations.ReferenceFirstAmpsAtSample340
  intro st vs hl hpcap hscap hdepth hrun hport hp hs hout hlen hhost htone
  rw [← hlen] at htone
  have hstart : ToneRun vs 0 st :=
    ⟨hpcap, hscap, hdepth, presents_of_infinite hl hdepth hrun hport hhost, by simp [hp, hs], by simp [hs], by simp [hout]⟩
  obtain ⟨u, hu, htr⟩ := runSteps_toneRun hstart htone 339 (by omega) le_rfl
  have hlast := runSteps_succ_of_last hu (htr.step_eq (by omega))
  obtain ⟨hlength, hook, lanes, hhook, hamps⟩ := htr.acceptSample_evaluates htone (by omega) vs[339]
  refine ⟨u, _, hu, hlast, countP_isAmps_of_isHook htr.events, ?_, ?_, hlength⟩
  · simp [hamps, countP_isAmps_of_isHook hhook, Event.isAmps]
  · simpa [hamps] using pause_notMem_of_isHook hhook

/-- Settles O37: a P of one sample is full and silent. -/
theorem pcapOneNeverEvaluates : Obligations.PcapOneNeverEvaluates := by
  unfold Obligations.PcapOneNeverEvaluates
  intro st v x hready hport hpcap hp
  have hsilent : silent st.p = true := by rw [hp, silent_singleton]
  have haccept := acceptSample_silence v (by simp [hp, hpcap]) hsilent
  rw [exec_sample_of_ready v hready hport, haccept]
  refine ⟨_, _, rfl, List.append_assoc .., by simp, ?_, rfl, rfl⟩
  simp [countP_isAmps_of_isHook (hookOutcome_isHook _ _), Event.isAmps]

end Sys2Proof.Machine

/-! ## Proofs of the statements of 41_pause_hook_detector.md -/

namespace Sys2Proof.Machine

/-! ### The sums of a window (R120) -/

@[simp] theorem windowSum_nil : windowSum [] = 0 := rfl

@[simp] theorem windowSum_cons (x : Sample) (w : List Sample) : windowSum (x :: w) = sampleValue x + windowSum w := List.sum_cons

@[simp] theorem windowSumSq_nil : windowSumSq [] = 0 := rfl

@[simp] theorem windowSumSq_cons (x : Sample) (w : List Sample) : windowSumSq (x :: w) = sampleValue x ^ 2 + windowSumSq w :=
  List.sum_cons

@[simp] theorem windowSum_replicate (n : Nat) (c : Sample) : windowSum (List.replicate n c) = n * sampleValue c := by
  simp [windowSum]

@[simp] theorem windowSumSq_replicate (n : Nat) (c : Sample) : windowSumSq (List.replicate n c) = n * sampleValue c ^ 2 := by
  simp [windowSumSq]

theorem sampleValue_le (x : Sample) : sampleValue x ≤ 255 := Nat.le_of_lt_succ x.isLt

theorem windowSum_le (w : List Sample) : windowSum w ≤ 255 * w.length := by
  induction w with
  | nil => simp
  | cons x w ih =>
    have hx := sampleValue_le x
    rw [windowSum_cons, List.length_cons]
    omega

theorem windowSumSq_le (w : List Sample) : windowSumSq w ≤ 65025 * w.length := by
  induction w with
  | nil => simp
  | cons x w ih =>
    have hx : sampleValue x ^ 2 ≤ 255 ^ 2 := Nat.pow_le_pow_left (sampleValue_le x) 2
    rw [windowSumSq_cons, List.length_cons]
    omega

/-- Cauchy–Schwarz: Σ² ≤ n·Q. -/
theorem windowSum_sq_le (w : List Sample) : windowSum w ^ 2 ≤ w.length * windowSumSq w := by
  have h := sq_sum_le_card_mul_sum_sq (s := Finset.univ) (f := fun i : Fin w.length => sampleValue w[i.val])
  rwa [Fin.sum_univ_fun_getElem w sampleValue, Fin.sum_univ_fun_getElem w (fun x => sampleValue x ^ 2), Finset.card_univ,
    Fintype.card_fin] at h

/-! ### The population deviation (R121, R122) -/

/-- The sum of the squared distances from any centre `m`, in the sums of R120. -/
theorem sum_sq_sub_eq (w : List Sample) (m : ℝ) :
    (w.map fun x => ((sampleValue x : ℝ) - m) ^ 2).sum = windowSumSq w - 2 * m * windowSum w + w.length * m ^ 2 := by
  induction w with
  | nil => simp
  | cons x w ih =>
    rw [List.map_cons, List.sum_cons, ih, windowSumSq_cons, windowSum_cons, List.length_cons]
    push_cast
    ring

/-- The mean squared deviation from the mean is (n·Q − Σ²) / n² (R122). -/
theorem variance_eq {w : List Sample} (hw : w ≠ []) :
    (w.map fun x => ((sampleValue x : ℝ) - (windowSum w : ℝ) / w.length) ^ 2).sum / w.length =
      (w.length * windowSumSq w - (windowSum w : ℝ) ^ 2) / (w.length : ℝ) ^ 2 := by
  have hn : (w.length : ℝ) ≠ 0 := Nat.cast_ne_zero.2 (List.length_pos_iff.2 hw).ne'
  rw [sum_sq_sub_eq]
  field_simp
  ring

/-- The integer test of R122, read in the reals. -/
theorem silent_iff_real (w : List Sample) :
    silent w = true ↔ w.length * windowSumSq w - (windowSum w : ℝ) ^ 2 ≤ (w.length : ℝ) ^ 2 := by
  rw [silent_iff]
  exact_mod_cast Iff.rfl

/-! ### The mean of a full P (R125, R126) -/

theorem mean_gt_iff {w : List Sample} (hw : 0 < w.length) (c : Nat) :
    (windowSum w : ℝ) / w.length > c ↔ windowSum w > c * w.length := by
  rw [gt_iff_lt, lt_div_iff₀ (Nat.cast_pos.2 hw)]
  exact_mod_cast Iff.rfl

theorem mean_lt_iff {w : List Sample} (hw : 0 < w.length) (c : Nat) :
    (windowSum w : ℝ) / w.length < c ↔ windowSum w < c * w.length := by
  rw [div_lt_iff₀ (Nat.cast_pos.2 hw)]
  exact_mod_cast Iff.rfl

theorem hookOutcome_of_high {h : HookState} {w : List Sample} (hh : h = .onHook) (hsum : windowSum w > 180 * w.length) :
    hookOutcome h w = (.offHook, [.offHook]) := by
  rw [hh, hookOutcome, if_pos hsum]

theorem hookOutcome_of_low {h : HookState} {w : List Sample} (hh : h = .offHook) (hsum : windowSum w < 20 * w.length) :
    hookOutcome h w = (.onHook, [.onHook]) := by
  rw [hh, hookOutcome, if_pos hsum]

/-- Between the thresholds, and at them, a classification moves nothing (R127). -/
theorem hookOutcome_of_between {h : HookState} {w : List Sample}
    (hsum : h = .onHook ∧ ¬ windowSum w > 180 * w.length ∨ h = .offHook ∧ ¬ windowSum w < 20 * w.length) :
    hookOutcome h w = (h, []) := by
  rcases hsum with ⟨rfl, hle⟩ | ⟨rfl, hle⟩ <;> rw [hookOutcome, if_neg hle]

/-- A sample accepted with P full: HOOK takes the hook outcome of P, and its event comes before those of other kinds. -/
theorem acceptSample_hook_out_of_full (v : Sample) {st : State} (hfull : st.cfg.pcap ≤ st.p.length) :
    ∃ last, (∀ e ∈ last, e.isHook = false) ∧ (st.acceptSample v).hook = (hookOutcome st.hook st.p).1 ∧
      (st.acceptSample v).out = st.out ++ ((hookOutcome st.hook st.p).2 ++ last) := by
  rcases acceptSample_cases v st with ⟨hlt, -⟩ | ⟨-, -, e⟩ | ⟨-, -, _, last, hlast, e⟩
  · exact absurd hlt hfull.not_gt
  · exact ⟨[.pause], by simp [Event.isHook], by rw [e], by rw [e, List.append_assoc]⟩
  · refine ⟨last, ?_, by rw [e], by rw [e, List.append_assoc]⟩
    rcases hlast with ⟨-, -, rfl⟩ | ⟨-, -, rfl⟩ <;> simp [Event.isHook]

/-! ### Hook events and HOOK agree (R127) -/

theorem hookTrace_append (h : HookState) (es fs : List Event) :
    hookTrace h (es ++ fs) = (hookTrace h es).bind fun h' => hookTrace h' fs := by
  induction es generalizing h with
  | nil => rfl
  | cons e es ih =>
    cases e with
    | amps | pause => exact ih h
    | offHook | onHook =>
      simp only [List.cons_append, hookTrace]
      split
      · exact ih _
      · rfl

theorem hookTrace_of_not_hook (h : HookState) {es : List Event} (hes : ∀ e ∈ es, e.isHook = false) : hookTrace h es = some h := by
  induction es with
  | nil => rfl
  | cons e es ih =>
    obtain ⟨he, hes'⟩ := List.forall_mem_cons.1 hes
    cases e with
    | amps | pause => exact ih hes'
    | offHook | onHook => cases he

theorem hookTrace_hookOutcome (h : HookState) (w : List Sample) : hookTrace h (hookOutcome h w).2 = some (hookOutcome h w).1 := by
  rcases hookOutcome_cases h w with e | ⟨rfl, e⟩ | ⟨rfl, e⟩ <;> rw [e] <;> rfl

/-- From `st` to `u` events were only added, and their hook events alternate from the HOOK of `st` to the HOOK of `u`. -/
def AlternatesTo (st u : State) : Prop :=
  ∃ new, u.taken ++ u.out = st.taken ++ st.out ++ new ∧ hookTrace st.hook new = some u.hook

theorem AlternatesTo.of_unchanged {st u : State} (hevents : u.taken ++ u.out = st.taken ++ st.out) (hhook : u.hook = st.hook) :
    AlternatesTo st u :=
  ⟨[], by rw [hevents, List.append_nil], by rw [hhook, hookTrace]⟩

theorem AlternatesTo.trans {st u t : State} (hu : AlternatesTo st u) (ht : AlternatesTo u t) : AlternatesTo st t := by
  obtain ⟨es, hes, hhook⟩ := hu
  obtain ⟨fs, hfs, hhook'⟩ := ht
  exact ⟨es ++ fs, by rw [hfs, hes, List.append_assoc], by rw [hookTrace_append, hhook, Option.bind_some, hhook']⟩

theorem acceptSample_alternatesTo (v : Sample) (st : State) : AlternatesTo st (st.acceptSample v) := by
  by_cases hroom : st.p.length < st.cfg.pcap
  · rw [acceptSample_append v hroom]
    exact .of_unchanged rfl rfl
  obtain ⟨last, hlast, hhook, hout⟩ := acceptSample_hook_out_of_full v (not_lt.1 hroom)
  refine ⟨(hookOutcome st.hook st.p).2 ++ last, by rw [acceptSample_taken, hout, List.append_assoc], ?_⟩
  rw [hookTrace_append, hookTrace_hookOutcome, Option.bind_some, hookTrace_of_not_hook _ hlast, hhook]

theorem serveSample_alternatesTo (st : State) : AlternatesTo st st.serveSample := by
  rcases serveSample_cases st with ⟨e, -⟩ | ⟨v, _, -, -, e⟩
  · rw [e]
    exact .of_unchanged rfl rfl
  · rw [e]
    exact acceptSample_alternatesTo v st.dropSample

theorem exec_alternatesTo {i : Instr} {st t : State} (hi : i ≠ .stop) (he : exec i st = .next t) : AlternatesTo st t := by
  rcases exec_cases he with ⟨v, -, rfl⟩ | ⟨-, ⟨-, rfl⟩ | ⟨-, rfl⟩⟩ | ⟨hstop, -⟩ | ⟨-, rfl⟩
  · exact serveSample_alternatesTo (st.present v)
  · exact .of_unchanged rfl rfl
  · exact .of_unchanged rfl rfl
  · exact absurd hstop hi
  · exact .of_unchanged rfl rfl

/-- Every step but a STOP and a reset keeps the events and extends them by the hook transition it makes. -/
theorem step_alternatesTo {st t : State} (hhost : ∀ m ∈ st.host, m.instr ≠ some .stop ∧ m ≠ .rst) (hstep : step st = .next t) :
    AlternatesTo st t := by
  rcases step_cases hstep with ⟨-, ⟨m, i, hm, hi, he⟩ | ⟨-, rfl⟩ | ⟨hm, -⟩ | ⟨-, rfl⟩⟩
  · obtain ⟨hstop, -⟩ := hhost m (List.mem_of_mem_head? hm)
    have hexec : AlternatesTo st.dropMove t := exec_alternatesTo (fun hi' => hstop (hi' ▸ hi)) he
    exact hexec
  · exact .of_unchanged (takeHead_taken_append_out st.dropMove) (takeHead_hook st.dropMove)
  · obtain ⟨-, hrst⟩ := hhost _ (List.mem_of_mem_head? hm)
    exact absurd rfl hrst
  · exact serveSample_alternatesTo st.dropMove

/-! ### The host's moves along a run -/

theorem exec_host {i : Instr} {st t : State} (he : exec i st = .next t) : t.host = st.host := by
  rcases exec_cases he with
    ⟨v, -, rfl⟩ | ⟨-, ⟨-, rfl⟩ | ⟨-, rfl⟩⟩ | ⟨-, ⟨-, rfl⟩ | ⟨-, rfl⟩⟩ | ⟨-, rfl⟩
  · exact serveSample_host (st.present v)
  all_goals rfl

/-- A step takes the host's next move and leaves the others. -/
theorem step_host {st t : State} (hstep : step st = .next t) : t.host = st.host.tail := by
  rcases step_cases hstep with ⟨-, ⟨_, _, -, -, he⟩ | ⟨-, rfl⟩ | ⟨-, rfl⟩ | ⟨-, rfl⟩⟩
  · exact exec_host he
  · rw [takeHead_eq]
    rfl
  · rfl
  · exact serveSample_host st.dropMove

theorem runSteps_alternatesTo (n : Nat) {st t : State} (hhost : ∀ m ∈ st.host, m.instr ≠ some .stop ∧ m ≠ .rst)
    (hrun : runSteps n st = .next t) : AlternatesTo st t := by
  induction n generalizing st with
  | zero =>
    obtain rfl := Host.Outcome.next.inj hrun
    exact .of_unchanged rfl rfl
  | succ n ih =>
    obtain ⟨u, hu, ht⟩ := runSteps_succ_cases hrun
    have hhost' : ∀ m ∈ u.host, m.instr ≠ some .stop ∧ m ≠ .rst := by
      rw [step_host hu]
      exact fun m hm => hhost m (List.mem_of_mem_tail hm)
    exact (step_alternatesTo hhost hu).trans (ih hhost' ht)

/-! ### The obligations -/

/-- Settles O41: a step without STOP and reset emits the hook event of the transition it makes, and runs compose. -/
theorem hookEventsAlternate : Obligations.HookEventsAlternate := by
  unfold Obligations.HookEventsAlternate
  exact fun n _ _ => runSteps_alternatesTo n

/-- Settles O38: the mean squared deviation is (n·Q − Σ²) / n², and a square root is at most 1 exactly when its argument is. -/
theorem silentIffDeviationAtMostOne : Obligations.SilentIffDeviationAtMostOne := by
  unfold Obligations.SilentIffDeviationAtMostOne
  intro w hw
  have hn : 0 < (w.length : ℝ) ^ 2 := pow_pos (Nat.cast_pos.2 (List.length_pos_iff.2 hw)) 2
  exact ⟨by rw [variance_eq hw, Real.sqrt_le_one, div_le_one hn, silent_iff_real], silent_iff w⟩

/-- Settles O39: Σ and Q are sums of n values of at most 255 and 255², and n is at most 65535. -/
theorem classificationFitsWidths : Obligations.ClassificationFitsWidths := by
  unfold Obligations.ClassificationFitsWidths
  intro w hlen
  have hsum := windowSum_le w
  have hsq := windowSumSq_le w
  have hprod : w.length * windowSumSq w ≤ 65535 * (65025 * 65535) :=
    Nat.mul_le_mul hlen (hsq.trans (Nat.mul_le_mul_left 65025 hlen))
  have hcs := windowSum_sq_le w
  have hlen2 : w.length ^ 2 ≤ 65535 ^ 2 := Nat.pow_le_pow_left hlen 2
  exact ⟨hsum, by omega, hsq, by omega, by omega, by omega, by omega, hcs⟩

/-- Settles O40: the comparisons of the mean are those of Σ that `hookOutcome` makes, and the outcome's event comes first. -/
theorem hookHysteresis : Obligations.HookHysteresis := by
  unfold Obligations.HookHysteresis
  intro st v hready hport hfull hpos
  obtain ⟨last, hlast, hhook, hout⟩ := acceptSample_hook_out_of_full v hfull.ge
  have hhigh := mean_gt_iff (hfull ▸ hpos : 0 < st.p.length) 180
  have hlow := mean_lt_iff (hfull ▸ hpos : 0 < st.p.length) 20
  push_cast at hhigh hlow
  refine ⟨_, _, exec_sample_of_ready v hready hport, hout, fun hh hmean => ?_, fun hh hmean => ?_, fun hmean => ?_⟩
  · rw [hhook, hookOutcome_of_high hh (hhigh.1 hmean)]
    exact ⟨rfl, rfl⟩
  · rw [hhook, hookOutcome_of_low hh (hlow.1 hmean)]
    exact ⟨rfl, rfl⟩
  · rw [← not_lt, ← not_lt, ← gt_iff_lt, hhigh, hlow] at hmean
    rw [hhook, hookOutcome_of_between hmean]
    exact ⟨rfl, List.countP_eq_zero.2 fun e he => by simp [hlast e he]⟩

/-- Settles O42: equal samples give n·Q = Σ², and two samples give n·Q − Σ² = (a − b)². -/
theorem silenceCorners : Obligations.SilenceCorners := by
  unfold Obligations.SilenceCorners
  refine ⟨fun n c => ?_, fun a b => ?_⟩
  · have hzero : (n * (n * sampleValue c ^ 2) : ℤ) - (n * sampleValue c) ^ 2 = 0 := by ring
    rw [silent_iff, windowSum_replicate, windowSumSq_replicate, List.length_replicate]
    push_cast
    rw [hzero]
    positivity
  · have hdiff : (2 * (sampleValue a ^ 2 + sampleValue b ^ 2) : ℤ) - (sampleValue a + sampleValue b) ^ 2 =
        (sampleValue a - sampleValue b : ℤ) ^ 2 := by ring
    have hsilent : silent [a, b] = true ↔ (sampleValue a - sampleValue b : ℤ) ^ 2 ≤ 2 ^ 2 := by
      rw [silent_iff, ← hdiff]
      simp
    rw [hsilent, sq_le_sq, abs_two]

end Sys2Proof.Machine

/-! ## Proofs of the statements of 42_tone_analyzer.md -/

namespace Sys2Proof.Machine

/-! ### The bin numbers (R143) -/

theorem floor_div_add_half_eq (num den : Nat) : ⌊(num : ℝ) / den + 1 / 2⌋ = (roundHalfUp num den : ℤ) := by
  rw [roundHalfUp_eq_floor]
  exact (Int.natCast_floor_eq_floor (by positivity)).symm

/-- In hundredths, f × 0.03 is a tie only where 3·f is 50 modulo 100. -/
theorem mul_three_hundredths_ne_tie {f : Nat} (h : 3 * f % 100 ≠ 50) (n : ℤ) : (f : ℝ) * 0.03 ≠ n + 1 / 2 := by
  intro htie
  have hreal : (3 * f : ℝ) = 100 * n + 50 := by linarith
  have hint : (3 * f : ℤ) = 100 * n + 50 := by exact_mod_cast hreal
  omega

theorem targetFrequencies_not_tie : ∀ j : Fin 8, 3 * targetFrequencies[j] % 100 ≠ 50 := by decide

/-- The table of R143 under both readings of the window's duration: 3/100 and 288 / 9615.38 of a second. -/
theorem binNumbers_eq_roundHalfUp : ∀ j : Fin 8, binNumbers[j] = roundHalfUp (3 * targetFrequencies[j]) 100 ∧
    binNumbers[j] = roundHalfUp (targetFrequencies[j] * 28800) 961538 := by decide

/-! ### The root of unity of a bin -/

/-- e^(2πi·k/N), the phase that bin `k` turns from one sample of a window of `n` to the next (R144). -/
noncomputable def binRoot (k n : Nat) : ℂ := Complex.exp ((2 * Real.pi * k / n : ℝ) * Complex.I)

@[simp] theorem norm_binRoot (k n : Nat) : ‖binRoot k n‖ = 1 := Complex.norm_exp_ofReal_mul_I _

theorem binRoot_re (k n : Nat) : (binRoot k n).re = Real.cos (2 * Real.pi * k / n) := Complex.exp_ofReal_mul_I_re _

theorem binRoot_pow (k n i : Nat) :
    binRoot k n ^ i = Complex.exp ((2 * Real.pi * k * (i / n) : ℝ) * Complex.I) := by
  rw [binRoot, ← Complex.exp_nat_mul]
  congr 1
  push_cast
  ring

theorem binRoot_eq_one_pow (k n : Nat) : binRoot k n = binRoot 1 n ^ k := by
  rw [binRoot_pow, binRoot]
  congr 3
  push_cast
  ring

theorem binRoot_isPrimitiveRoot {n : Nat} (hn : n ≠ 0) : IsPrimitiveRoot (binRoot 1 n) n := by
  have h := Complex.isPrimitiveRoot_exp n hn
  rwa [show 2 * Real.pi * Complex.I / n = (2 * Real.pi * (1 : ℕ) / n : ℝ) * Complex.I by push_cast; ring] at h

theorem binRoot_eq_one_iff {k n : Nat} (hn : n ≠ 0) : binRoot k n = 1 ↔ n ∣ k := by
  rw [binRoot_eq_one_pow, (binRoot_isPrimitiveRoot hn).pow_eq_one_iff_dvd]

theorem binRoot_pow_length (k n : Nat) : binRoot k n ^ n = 1 := by
  rcases eq_or_ne n 0 with rfl | hn
  · rw [pow_zero]
  · rw [binRoot_eq_one_pow, pow_right_comm, (binRoot_isPrimitiveRoot hn).pow_eq_one, one_pow]

/-- In an empty window every phase is 1 as well, the quotient by 0 being 0. -/
theorem binRoot_eq_one_of_dvd {k n : Nat} (h : n ∣ k) : binRoot k n = 1 := by
  rcases eq_or_ne n 0 with rfl | hn
  · simp [binRoot]
  · exact (binRoot_eq_one_iff hn).2 h

theorem binRoot_add (k k' n : Nat) : binRoot (k + k') n = binRoot k n * binRoot k' n := by
  rw [binRoot_eq_one_pow (k + k'), pow_add, ← binRoot_eq_one_pow, ← binRoot_eq_one_pow]

theorem binRoot_eq_of_mod_eq {k k' n : Nat} (h : k % n = k' % n) : binRoot k n = binRoot k' n := by
  have hone := binRoot_pow_length 1 n
  rw [binRoot_eq_one_pow k, binRoot_eq_one_pow k', pow_eq_pow_mod k hone, h, ← pow_eq_pow_mod k' hone]

/-- Opposite bins turn in opposite senses. -/
theorem binRoot_eq_inv {k k' n : Nat} (h : (k + k') % n = 0) : binRoot k n = (binRoot k' n)⁻¹ := by
  refine eq_inv_of_mul_eq_one_left ?_
  rw [← binRoot_add, binRoot_eq_one_of_dvd (Nat.dvd_of_mod_eq_zero h)]

/-! ### The transform of a window -/

/-- Σ zⁱ·s_i over a window, oldest sample first. At the root of bin `k` it is N·(C + i·S) of R144 (`isExactAmplitude_iff`). -/
noncomputable def transform (z : ℂ) : List Sample → ℂ
  | [] => 0
  | x :: w => sampleValue x + z * transform z w

@[simp] theorem transform_nil (z : ℂ) : transform z [] = 0 := rfl

@[simp] theorem transform_cons (z : ℂ) (x : Sample) (w : List Sample) : transform z (x :: w) = sampleValue x + z * transform z w := rfl

theorem transform_eq_sum (z : ℂ) (w : List Sample) : transform z w = ∑ i : Fin w.length, z ^ (i : ℕ) * sampleValue w[i] := by
  induction w with
  | nil => rfl
  | cons x w ih =>
    rw [transform_cons, ih, Finset.mul_sum]
    simp [Fin.sum_univ_succ, pow_succ', mul_assoc]

theorem transform_append (z : ℂ) (v w : List Sample) : transform z (v ++ w) = transform z v + z ^ v.length * transform z w := by
  induction v with
  | nil => simp
  | cons x v ih =>
    rw [List.cons_append, transform_cons, ih, transform_cons, List.length_cons]
    ring

@[simp] theorem transform_replicate (z : ℂ) (n : Nat) (c : Sample) :
    transform z (List.replicate n c) = sampleValue c * ∑ i ∈ Finset.range n, z ^ i := by
  induction n with
  | zero => simp
  | succ n ih =>
    rw [List.replicate_succ, transform_cons, ih, geom_sum_succ]
    ring

@[simp] theorem sampleValue_zero : sampleValue 0#8 = 0 := rfl

theorem transform_one (w : List Sample) : transform 1 w = windowSum w := by
  induction w with
  | nil => simp
  | cons x w ih => simp [ih]

/-! ### The amplitude is the norm of the transform (R144, R145) -/

theorem isExactAmplitude_iff {k : Nat} {w : List Sample} {A : ℝ} :
    IsExactAmplitude k w A ↔ A = ‖transform (binRoot k w.length) w‖ / w.length := by
  have hnorm : ∀ A, IsExactAmplitude k w A → A = ‖transform (binRoot k w.length) w‖ / w.length := by
    intro A hA
    rw [exact_norm hA, norm_div, Complex.norm_natCast, transform_eq_sum]
    simp only [binRoot_pow]
  exact ⟨hnorm A, fun h => h.trans (hnorm _ rfl).symm⟩

/-- Two windows of one length whose transforms have the same norm have the same amplitude. -/
theorem IsExactAmplitude.congr {k k' : Nat} {w w' : List Sample} {A : ℝ} (hlen : w'.length = w.length)
    (hnorm : ‖transform (binRoot k' w.length) w'‖ = ‖transform (binRoot k w.length) w‖) (h : IsExactAmplitude k w A) :
    IsExactAmplitude k' w' A := by
  rw [isExactAmplitude_iff] at *
  rw [hlen, hnorm, h]

theorem IsExactAmplitude.nonneg {k : Nat} {w : List Sample} {A : ℝ} (h : IsExactAmplitude k w A) : 0 ≤ A := by
  rw [isExactAmplitude_iff.1 h]
  positivity

/-! ### Rotation, reversal and opposite bins (R148, R150) -/

/-- Moving the oldest sample to the end turns the transform back by one phase. -/
theorem mul_transform_rotate_one {z : ℂ} {w : List Sample} (hz : z ^ w.length = 1) : z * transform z (w.rotate 1) = transform z w := by
  cases w with
  | nil => simp
  | cons x w =>
    have hturn : z * z ^ w.length = 1 := by rwa [← pow_succ']
    rw [List.rotate_cons_succ, List.rotate_zero, transform_append, transform_cons, transform_cons, transform_nil]
    linear_combination sampleValue x * hturn

theorem norm_transform_rotate {z : ℂ} {w : List Sample} (hz : z ^ w.length = 1) (hnorm : ‖z‖ = 1) (r : Nat) :
    ‖transform z (w.rotate r)‖ = ‖transform z w‖ := by
  induction r with
  | zero => rw [List.rotate_zero]
  | succ r ih =>
    have hturn : z * transform z ((w.rotate r).rotate 1) = transform z (w.rotate r) :=
      mul_transform_rotate_one (by rwa [List.length_rotate])
    rw [← ih, ← hturn, norm_mul, hnorm, one_mul, List.rotate_rotate]

/-- Conjugation turns the phase the other way and keeps the samples, which are real. -/
theorem norm_transform_inv {z : ℂ} (hnorm : ‖z‖ = 1) (w : List Sample) : ‖transform z⁻¹ w‖ = ‖transform z w‖ := by
  have hconj : transform z⁻¹ w = starRingEnd ℂ (transform z w) := by
    induction w with
    | nil => simp
    | cons x w ih => rw [transform_cons, ih, transform_cons, map_add, map_mul, map_natCast, Complex.inv_eq_conj hnorm]
  rw [hconj, Complex.norm_conj]

theorem mul_transform_reverse {z : ℂ} (hz : z ≠ 0) (w : List Sample) :
    z * transform z w.reverse = z ^ w.length * transform z⁻¹ w := by
  induction w with
  | nil => simp
  | cons x w ih =>
    rw [List.reverse_cons, transform_append, mul_add, ih, List.length_reverse, transform_cons, transform_cons, transform_nil,
      List.length_cons]
    field_simp
    ring

theorem norm_transform_reverse {z : ℂ} (hnorm : ‖z‖ = 1) (w : List Sample) : ‖transform z w.reverse‖ = ‖transform z w‖ := by
  have hz : z ≠ 0 := ne_zero_of_norm_ne_zero (hnorm ▸ one_ne_zero)
  have h := congrArg norm (mul_transform_reverse hz w)
  rwa [norm_mul, norm_mul, norm_pow, hnorm, one_pow, one_mul, one_mul, norm_transform_inv hnorm] at h

/-! ### The Goertzel recurrence (R152) -/

theorem goertzelPair_append_singleton {R : Type} [CommRing R] (c : R) (xs : List R) (x : R) :
    goertzelPair c (xs ++ [x]) = (x + 2 * c * (goertzelPair c xs).1 - (goertzelPair c xs).2, (goertzelPair c xs).1) := by
  simp [goertzelPair]

/-- With c = Re z, the recurrence s_n = x_n + 2c·s_(n−1) − s_(n−2) is one of first order in s_n − z⁻¹·s_(n−1). -/
theorem goertzelPair_sub_inv_mul {z : ℂ} (hnorm : ‖z‖ = 1) (w : List Sample) :
    ((goertzelPair z.re (w.map fun x => (sampleValue x : ℝ))).1 : ℂ) -
      z⁻¹ * (goertzelPair z.re (w.map fun x => (sampleValue x : ℝ))).2 = transform z w.reverse := by
  have hre : (2 * z.re : ℂ) = z + z⁻¹ := by rw [Complex.inv_eq_conj hnorm, Complex.add_conj]; push_cast; rfl
  have hz : z ≠ 0 := ne_zero_of_norm_ne_zero (hnorm ▸ one_ne_zero)
  induction w using List.reverseRecOn with
  | nil => simp [goertzelPair]
  | append_singleton w x ih =>
    rw [List.reverse_append, List.reverse_singleton, List.singleton_append, transform_cons, ← ih, List.map_append, List.map_singleton,
      goertzelPair_append_singleton]
    push_cast
    rw [hre]
    field_simp
    ring

theorem sq_norm_sub_inv_mul {z : ℂ} (hnorm : ‖z‖ = 1) (a b : ℝ) : ‖(a : ℂ) - z⁻¹ * b‖ ^ 2 = a ^ 2 + b ^ 2 - 2 * z.re * a * b := by
  have hone : z.re * z.re + z.im * z.im = 1 := by
    rw [← Complex.normSq_apply, Complex.normSq_eq_norm_sq, hnorm, one_pow]
  rw [Complex.inv_eq_conj hnorm, Complex.sq_norm, Complex.normSq_apply]
  simp only [Complex.sub_re, Complex.sub_im, Complex.mul_re, Complex.mul_im, Complex.conj_re, Complex.conj_im, Complex.ofReal_re,
    Complex.ofReal_im]
  linear_combination b ^ 2 * hone

/-! ### The lanes (R146) -/

@[simp] theorem magnitude_zero : F64.magnitude 0#64 = 0 := by simp [F64.magnitude, F64.exponentField, F64.fraction]

theorem isAmplitude_iff (a : F64) : a.isAmplitude = true ↔ a.isFinite = true ∧ a.signBit = 0#1 := by simp [F64.isAmplitude]

/-- One binary64 within AMP_TOL of the exact amplitude is enough for the lane to be within it. -/
theorem laneValue_close {tol : Tolerance} {k : Nat} {w : List Sample} {A : ℝ} {b : F64} (hA : IsExactAmplitude k w A)
    (hb : b.isAmplitude = true) (hclose : |(b.magnitude : ℝ) - A| ≤ tol.value) :
    |((laneValue tol k w).magnitude : ℝ) - A| ≤ tol.value := by
  have hmeets : MeetsTolerance tol k w b := ⟨hb, fun B hB => by rwa [show B = A from hB.trans hA.symm]⟩
  exact (laneValue_meets hmeets).2 A hA

/-- A window of zeros has amplitude 0 in every bin (R150). -/
theorem isExactAmplitude_zeros (k : Nat) {w : List Sample} (hw : ∀ x ∈ w, x = 0#8) : IsExactAmplitude k w 0 := by
  rw [List.eq_replicate_of_mem hw, isExactAmplitude_iff]
  simp

/-! ### The obligations -/

/-- Settles O43: both products are quotients of naturals, rounded half up, and the eight roundings are evaluated. -/
theorem binNumbersAreRounded : Obligations.BinNumbersAreRounded := by
  unfold Obligations.BinNumbersAreRounded
  refine ⟨rfl, fun j => ?_⟩
  obtain ⟨hround, hreference⟩ := binNumbers_eq_roundHalfUp j
  refine ⟨?_, mul_three_hundredths_ne_tie (targetFrequencies_not_tie j), ?_⟩
  · rw [hround, ← floor_div_add_half_eq]
    push_cast
    congr 2
    ring
  · rw [hreference, ← floor_div_add_half_eq]
    push_cast
    congr 2
    ring

/-- Settles O44: one binary64 within AMP_TOL is enough; a multiple of 2^-45 is within 2^-46, and +0.0 is exact over zeros. -/
theorem lanesWithinTolerance : Obligations.LanesWithinTolerance := by
  unfold Obligations.LanesWithinTolerance
  intro tol w j
  have hlane : (analyze tol w)[j] = laneValue tol binNumbers[j] w := analyze_getElem tol w j j.isLt
  rw [hlane]
  generalize binNumbers[j] = k
  obtain ⟨hfinite, hsign⟩ := (isAmplitude_iff _).1 (laneValue_allowed tol k w).isAmplitude
  obtain ⟨A, hA⟩ : ∃ A, IsExactAmplitude k w A := ⟨_, rfl⟩
  refine ⟨hfinite, hsign, A, hA, hA.nonneg, ?_, fun htol => ?_, fun hw htol => ?_⟩
  · rintro ⟨b, hbfinite, hbsign, hclose⟩
    exact laneValue_close hA ((isAmplitude_iff b).2 ⟨hbfinite, hbsign⟩) hclose
  · obtain ⟨b, hb, hclose⟩ := exists_lane_close hA
    exact laneValue_close hA hb (hclose.trans htol)
  · obtain rfl : A = 0 := hA.trans (isExactAmplitude_zeros k hw).symm
    exact ⟨rfl, laneValue_close (b := 0#64) hA rfl (by simpa using htol.le)⟩

/-- Settles O45: a rotation turns the transform by a unit complex number, and a reversal turns its conjugate. -/
theorem amplitudeRotationReversal : Obligations.AmplitudeRotationReversal := by
  unfold Obligations.AmplitudeRotationReversal
  intro k r w A hA
  have hnorm := norm_binRoot k w.length
  exact ⟨hA.congr (List.length_rotate w r) (norm_transform_rotate (binRoot_pow_length k w.length) hnorm r),
    hA.congr List.length_reverse (norm_transform_reverse hnorm w)⟩

/-- Settles O46: only one term of the transform is not 0, and its phase has norm 1. -/
theorem impulseAmplitude : Obligations.ImpulseAmplitude := by
  unfold Obligations.ImpulseAmplitude
  intro k a b v
  have hlen : (List.replicate a 0#8 ++ v :: List.replicate b 0#8).length = a + b + 1 := by simp [add_assoc]
  rw [isExactAmplitude_iff, hlen, transform_append]
  simp

/-- Settles O47: the powers of a root of unity that is not 1 sum to 0. -/
theorem dcRejection : Obligations.DcRejection := by
  unfold Obligations.DcRejection
  intro k n c hdvd
  rw [isExactAmplitude_iff, List.length_replicate]
  rcases eq_or_ne n 0 with rfl | hn
  · simp
  · have hne : binRoot k n ≠ 1 := mt (binRoot_eq_one_iff hn).1 hdvd
    rw [transform_replicate, geom_sum_eq hne, binRoot_pow_length]
    simp

/-- Settles O48: every phase is 1, so the transform is Σ. -/
theorem meanWhenLengthDividesBin : Obligations.MeanWhenLengthDividesBin := by
  unfold Obligations.MeanWhenLengthDividesBin
  intro k w hdvd
  rw [isExactAmplitude_iff, binRoot_eq_one_of_dvd hdvd, transform_one, Complex.norm_natCast]

/-- Settles O49: equal bins have the same phase and opposite bins inverse ones, whose transforms are conjugate. -/
theorem aliasedBinsAgree : Obligations.AliasedBinsAgree := by
  unfold Obligations.AliasedBinsAgree
  intro k k' w A hbins hA
  refine hA.congr rfl ?_
  rcases hbins with hmod | hmod
  · rw [binRoot_eq_of_mod_eq hmod]
  · rw [binRoot_eq_inv hmod, norm_transform_inv (norm_binRoot _ _)]

/-- Settles O50: s_(N−1) − z⁻¹·s_(N−2) is the transform of the reversed window at the root z of the bin. -/
theorem goertzelRecurrenceAgrees : Obligations.GoertzelRecurrenceAgrees := by
  unfold Obligations.GoertzelRecurrenceAgrees
  intro k w A hA
  have hnorm := norm_binRoot k w.length
  have hscale : w.length * A = ‖transform (binRoot k w.length) w‖ := by
    rw [isExactAmplitude_iff.1 hA]
    rcases eq_or_ne w [] with rfl | hw
    · simp
    · exact mul_div_cancel₀ _ (Nat.cast_ne_zero.2 (List.length_pos_iff.2 hw).ne')
  rw [← mul_pow, hscale, ← norm_transform_reverse hnorm, ← goertzelPair_sub_inv_mul hnorm, sq_norm_sub_inv_mul hnorm, binRoot_re]

end Sys2Proof.Machine

/-! ## Proofs of the statements of 43_control.md -/

namespace Sys2Proof.Machine

/-! ### START and STOP in each RUN state (R161, R163) -/

theorem exec_start_of_stopped {st : State} (hrun : st.run = .stopped) :
    exec .start st = .next { st with run := .running, p := [], s := [] } :=
  execStart_of_stopped hrun

theorem exec_start_of_running {st : State} (hrun : st.run = .running) : exec .start st = .next st := by
  rw [exec, execStart, hrun]

theorem exec_stop_of_running {st : State} (hrun : st.run = .running) :
    exec .stop st = .next { st with run := .stopped, p := [], s := [], out := [] } := by
  rw [exec, execStop, hrun]
  rfl

theorem exec_stop_of_stopped {st : State} (hrun : st.run = .stopped) : exec .stop st = .next st := by
  rw [exec, execStop, hrun]

/-! ### A second START or STOP, and a restart (R162, R164) -/

theorem exec_start_idempotent (st : State) : ∃ t, exec .start st = .next t ∧ exec .start t = .next t := by
  cases hrun : st.run with
  | stopped => exact ⟨_, exec_start_of_stopped hrun, exec_start_of_running rfl⟩
  | running => exact ⟨st, exec_start_of_running hrun, exec_start_of_running hrun⟩

theorem exec_stop_idempotent (st : State) : ∃ t, exec .stop st = .next t ∧ exec .stop t = .next t := by
  cases hrun : st.run with
  | stopped => exact ⟨st, exec_stop_of_stopped hrun, exec_stop_of_stopped hrun⟩
  | running => exact ⟨_, exec_stop_of_running hrun, exec_stop_of_stopped rfl⟩

/-- A stopped block that meets I2 has nothing that a STOP would clear. -/
theorem State.Inv.eq_cleared_of_stopped {st : State} (h : st.Inv) (hrun : st.run = .stopped) :
    st = { st with run := .stopped, p := [], s := [], out := [] } := by
  obtain ⟨hp, hs, hout⟩ := h.stopped hrun
  obtain ⟨cfg, run, p, s, hook, err, out, port, host, taken⟩ := st
  subst hrun hp hs hout
  rfl

/-- Under the invariants STOP clears the block from either RUN state. -/
theorem exec_stop_of_inv {st : State} (h : st.Inv) :
    exec .stop st = .next { st with run := .stopped, p := [], s := [], out := [] } := by
  cases hrun : st.run with
  | stopped => exact (exec_stop_of_stopped hrun).trans (congrArg Host.Outcome.next (h.eq_cleared_of_stopped hrun))
  | running => exact exec_stop_of_running hrun

/-! ### No move writes the configuration (R166) -/

theorem exec_cfg {i : Instr} {st t : State} (he : exec i st = .next t) : t.cfg = st.cfg := by
  rcases exec_cases he with
    ⟨v, -, rfl⟩ | ⟨-, ⟨-, rfl⟩ | ⟨-, rfl⟩⟩ | ⟨-, ⟨-, rfl⟩ | ⟨-, rfl⟩⟩ | ⟨-, rfl⟩
  · exact serveSample_cfg (st.present v)
  all_goals rfl

/-! ### The obligations -/

/-- Settles O54: after START the block runs and after STOP it is stopped, so a second one does nothing; under the invariants STOP clears
all that a reset clears but HOOK and ERR, and START writes neither. -/
theorem controlIdempotentAndRestart : Obligations.ControlIdempotentAndRestart := by
  unfold Obligations.ControlIdempotentAndRestart
  refine fun st => ⟨exec_start_idempotent st, exec_stop_idempotent st, fun h => ?_⟩
  exact ⟨_, _, _, exec_stop_of_inv h, exec_start_of_stopped rfl, exec_start_of_stopped st.applyReset_run, rfl⟩

/-- Settles O51: the word by evaluation, the effect by the equation of each RUN state. -/
theorem startEffect : Obligations.StartEffect := by
  unfold Obligations.StartEffect
  exact ⟨rfl, rfl, fun _ => ⟨exec_start_of_stopped, exec_start_of_running⟩⟩

/-- Settles O52: the word by evaluation, the effect by the equation of each RUN state. -/
theorem stopEffect : Obligations.StopEffect := by
  unfold Obligations.StopEffect
  exact ⟨rfl, rfl, fun _ => ⟨exec_stop_of_running, exec_stop_of_stopped⟩⟩

/-- Settles O53: the word and both codes by evaluation, the effect by `exec_rsvd`. -/
theorem rsvdEffect : Obligations.RsvdEffect := by
  unfold Obligations.RsvdEffect
  exact ⟨rfl, rfl, rfl, exec_rsvd⟩

/-- Settles O55: each kind of move keeps the configuration, and so does taking the move from the host. -/
theorem configurationIsFixed : Obligations.ConfigurationIsFixed := by
  unfold Obligations.ConfigurationIsFixed
  intro st t hstep
  rcases step_cases hstep with ⟨-, ⟨_, _, -, -, he⟩ | ⟨-, rfl⟩ | ⟨-, rfl⟩ | ⟨-, rfl⟩⟩
  · exact (exec_cfg he).trans st.dropMove_cfg
  · exact takeHead_cfg st.dropMove
  · exact st.dropMove.applyReset_cfg
  · exact serveSample_cfg st.dropMove

/-- Settles O57: the step takes the move and runs the code, whose meaning is the statement's case split. -/
theorem stepRunsControlCode : Obligations.StepRunsControlCode := by
  unfold Obligations.StepRunsControlCode
  intro st c rest hl hhost
  refine ⟨rfl, ?_⟩
  rw [step_of_cons hl hhost, dropMove_of_cons hhost, runMove, decodeControl]

end Sys2Proof.Machine

/-! ## Proofs of the statements of 60_exceptions.md -/

namespace Sys2Proof.Machine

/-- Settles O56: a legal step is one move of the host, and every kind of move answers a next state. -/
theorem noStepTraps : Obligations.NoStepTraps := by
  unfold Obligations.NoStepTraps
  exact fun _ hlegal => step_answers hlegal

end Sys2Proof.Machine

/-! ## Proofs of the statements of 70_reset_and_hazards.md -/

namespace Sys2Proof.Machine

/-! ### A block that holds every sample (R101, R225) -/

theorem sReady_eq_false_of_full {st : State} {d : Nat} (hdepth : st.cfg.outDepth = some d) (hfull : d < st.out.length + 2) :
    st.sReady = false := by
  refine Bool.eq_false_iff.2 fun hready => ?_
  obtain ⟨-, hroom⟩ := (sReady_iff st).1 hready
  exact (hroom d hdepth).not_gt hfull

theorem dropMove_of_nil {st : State} (h : st.host = []) : st.dropMove = st := by rw [State.dropMove, h, List.tail_nil, ← h]

theorem step_of_nil_of_not_ready {st : State} (hl : st.cfg.legal = true) (hready : st.sReady = false) (hhost : st.host = []) :
    step st = .next st := by
  rw [step_of_nil hl hhost, dropMove_of_nil hhost, serveSample_of_not_ready hready]

theorem step_of_word_of_not_ready {st : State} {v : Sample} {rest : List HostMove} (hl : st.cfg.legal = true)
    (hready : st.sReady = false) (hhost : st.host = .word (encode (.sample v)) :: rest) :
    step st = .next { st with samplePort := st.samplePort ++ [v], host := rest } := by
  have hheld : execSample v st.dropMove = .next (st.dropMove.present v) := execSample_of_not_ready v hready
  rw [step_of_cons hl hhost, runMove, decode_encode, exec, hheld, dropMove_of_cons hhost]
  rfl

/-- While the block is not ready, each presented word adds its sample to those that wait, and nothing else changes. -/
theorem runSteps_of_not_ready (n : Nat) {st : State} {vs : List Sample} (hl : st.cfg.legal = true) (hready : st.sReady = false)
    (hhost : st.host = sampleMoves vs) :
    runSteps n st = .next { st with samplePort := st.samplePort ++ vs.take n, host := sampleMoves (vs.drop n) } := by
  induction n generalizing st vs with
  | zero => simp [runSteps_zero, ← hhost]
  | succ n ih =>
    cases vs with
    | nil =>
      rw [runSteps_succ_of_next n (step_of_nil_of_not_ready hl hready hhost), ih hl hready hhost]
      simp
    | cons v vs =>
      have hstep : step st = .next { st with samplePort := st.samplePort ++ [v], host := sampleMoves vs } :=
        step_of_word_of_not_ready hl hready hhost
      rw [runSteps_succ_of_next n hstep,
        ih (st := { st with samplePort := st.samplePort ++ [v], host := sampleMoves vs }) hl hready rfl]
      simp

/-! ### The block whose consumer has taken nothing, and whose samples are all accepted (R46, R228) -/

/-- The block with every event still in OUT, and with nothing left to present: what is the same for every order in which a consumer
takes the events. -/
def State.undelivered (st : State) : State :=
  { st with out := st.taken ++ st.out, samplePort := [], host := [], taken := [] }

/-- The sample a move presents, if it does. -/
def HostMove.samples (m : HostMove) : List Sample :=
  match m.instr with
  | some (.sample v) => [v]
  | _ => []

/-- The samples still to be accepted, in the order of arrival: those that wait, and then those the host is about to present. -/
def State.pending (st : State) : List Sample := st.samplePort ++ st.host.flatMap HostMove.samples

/-- The block with every pending sample accepted, one after another, and no event taken. -/
def State.allAccepted (st : State) : State := st.pending.foldl (fun u v => u.acceptSample v) st.undelivered

@[simp] theorem samples_take : HostMove.take.samples = [] := rfl

@[simp] theorem samples_sampleTurn : HostMove.sampleTurn.samples = [] := rfl

@[simp] theorem samples_word_sample (v : Sample) : (HostMove.word (encode (.sample v))).samples = [v] := by
  simp [HostMove.samples, HostMove.instr, decode_encode]

/-- An accepted sample adds its events behind all others, taken or not. -/
theorem acceptSample_undelivered (v : Sample) (st : State) : (st.acceptSample v).undelivered = st.undelivered.acceptSample v := by
  by_cases hp : st.p.length < st.cfg.pcap
  · rw [acceptSample_append v hp, acceptSample_append v (st := st.undelivered) hp]
    rfl
  cases hs : silent st.p with
  | true =>
    rw [acceptSample_silence v hp hs, acceptSample_silence v (st := st.undelivered) hp hs]
    simp [State.undelivered]
  | false =>
    by_cases hf : (migrateLoop st.cfg.pcap st.cfg.scap st.p st.s).2.length = st.cfg.scap
    · rw [acceptSample_evaluate v hp hs hf, acceptSample_evaluate v (st := st.undelivered) hp hs hf]
      simp [State.undelivered]
    · rw [acceptSample_migrate v hp hs hf, acceptSample_migrate v (st := st.undelivered) hp hs hf]
      simp [State.undelivered]

theorem takeHead_undelivered (st : State) : st.takeHead.undelivered = st.undelivered := by
  rw [State.undelivered, takeHead_taken_append_out, takeHead_eq]
  rfl

/-- A transfer at the event port neither reads nor writes the samples. -/
theorem takeHead_allAccepted (st : State) : st.takeHead.allAccepted = st.allAccepted := by
  have hpending : st.takeHead.pending = st.pending := by rw [takeHead_eq]; rfl
  rw [State.allAccepted, hpending, takeHead_undelivered, State.allAccepted]

/-- The sample port's turn in a ready block accepts the first of the pending samples, if any waits. -/
theorem serveSample_allAccepted {st : State} (hready : st.sReady = true) : st.serveSample.allAccepted = st.allAccepted := by
  cases hport : st.samplePort with
  | nil => rw [serveSample_of_nil hport]
  | cons v rest =>
    have hpending : st.pending = v :: (st.dropSample.acceptSample v).pending := by simp [State.pending, hport]
    rw [serveSample_of_ready hport hready, State.allAccepted, acceptSample_undelivered, State.allAccepted, hpending]
    rfl

theorem dropMove_allAccepted_of_no_sample {st : State} {m : HostMove} {rest : List HostMove} (hhost : st.host = m :: rest)
    (hm : m.samples = []) : st.dropMove.allAccepted = st.allAccepted := by
  have hpending : st.dropMove.pending = st.pending := by simp [State.pending, hhost, hm]
  rw [State.allAccepted, hpending]
  rfl

theorem present_allAccepted {st : State} {v : Sample} {rest : List HostMove}
    (hhost : st.host = .word (encode (.sample v)) :: rest) : (st.dropMove.present v).allAccepted = st.allAccepted := by
  have hpending : (st.dropMove.present v).pending = st.pending := by simp [State.pending, hhost]
  rw [State.allAccepted, hpending]
  rfl

/-! ### A running block that no control move disturbs (R228) -/

/-- A running block with OUT_DEPTH = ∞, whose host only takes events, presents samples as words, or leaves the boundary to the samples. -/
structure Undisturbed (st : State) : Prop where
  legal : st.cfg.legal = true
  infinite : st.cfg.outDepth = none
  running : st.run = .running
  moves : ∀ m ∈ st.host, m = .take ∨ m = .sampleTurn ∨ ∃ v, m = .word (encode (.sample v))

theorem Undisturbed.ready {st : State} (h : Undisturbed st) : st.sReady = true := sReady_of_infinite h.running h.infinite

/-- A step leaves the block undisturbed as long as RUN stays: the configuration never changes, and the host only loses moves. -/
theorem Undisturbed.next {st u : State} (h : Undisturbed st) (hstep : step st = .next u) (hrun : u.run = st.run) :
    Undisturbed u := by
  have hcfg : u.cfg = st.cfg := configurationIsFixed st u hstep
  refine ⟨hcfg ▸ h.legal, hcfg ▸ h.infinite, hrun.trans h.running, fun m hm => h.moves m ?_⟩
  rw [step_host hstep] at hm
  exact List.mem_of_mem_tail hm

/-- The moves and the waiting samples that are still to come: each step of an undisturbed block uses up one of them at least. -/
def State.remaining (st : State) : Nat := st.host.length + st.samplePort.length

theorem serveSample_remaining {st : State} (hready : st.sReady = true) :
    st.serveSample.remaining = st.host.length + (st.samplePort.length - 1) := by
  have hport : st.serveSample.samplePort = st.samplePort.tail := by
    cases hp : st.samplePort with
    | nil => rw [serveSample_of_nil hp, hp, List.tail_nil]
    | cons v rest => rw [serveSample_of_ready hp hready, acceptSample_samplePort, State.dropSample_samplePort, hp]
  rw [State.remaining, serveSample_host, hport, List.length_tail]

theorem takeHead_remaining (st : State) : st.takeHead.remaining = st.remaining := by
  rw [takeHead_eq]
  rfl

/-- Each step of an undisturbed block leaves the outcome of the pending samples as it is, and brings it nearer. -/
theorem Undisturbed.step_allAccepted {st : State} (h : Undisturbed st) :
    ∃ u, step st = .next u ∧ Undisturbed u ∧ u.allAccepted = st.allAccepted ∧ u.remaining ≤ st.remaining - 1 := by
  have hready : st.dropMove.sReady = true := h.ready
  cases hhost : st.host with
  | nil =>
    have hstep := step_of_nil h.legal hhost
    refine ⟨_, hstep, h.next hstep (serveSample_run _), ?_, ?_⟩
    · rw [serveSample_allAccepted hready, dropMove_of_nil hhost]
    · rw [serveSample_remaining hready, State.remaining, dropMove_of_nil hhost, hhost]
      simp
  | cons m rest =>
    have hstep := step_of_cons h.legal hhost
    rcases h.moves m (by simp [hhost]) with rfl | rfl | ⟨v, rfl⟩
    · refine ⟨_, hstep, h.next hstep (takeHead_run _), ?_, ?_⟩
      · rw [takeHead_allAccepted, dropMove_allAccepted_of_no_sample hhost samples_take]
      · rw [takeHead_remaining]
        simp [State.remaining, hhost]
    · refine ⟨_, hstep, h.next hstep (serveSample_run _), ?_, ?_⟩
      · rw [serveSample_allAccepted hready, dropMove_allAccepted_of_no_sample hhost samples_sampleTurn]
      · rw [serveSample_remaining hready]
        simp [State.remaining, hhost]
    · have hpresent : (st.dropMove.present v).sReady = true := h.ready
      rw [runMove, decode_encode] at hstep
      refine ⟨_, hstep, h.next hstep (serveSample_run _), ?_, ?_⟩
      · rw [serveSample_allAccepted hpresent, present_allAccepted hhost]
      · rw [serveSample_remaining hpresent]
        simp [State.remaining, hhost]

/-- After as many steps as there are moves and waiting samples, or more, every pending sample has been accepted. -/
theorem Undisturbed.runSteps_drains (n : Nat) {st : State} (h : Undisturbed st) (hn : st.remaining ≤ n) :
    ∃ t, runSteps n st = .next t ∧ t.samplePort = [] ∧ t.host = [] ∧ t.undelivered = st.allAccepted := by
  induction n generalizing st with
  | zero =>
    have hhost : st.host = [] := List.eq_nil_of_length_eq_zero (by rw [State.remaining] at hn; omega)
    have hport : st.samplePort = [] := List.eq_nil_of_length_eq_zero (by rw [State.remaining] at hn; omega)
    refine ⟨st, runSteps_zero st, hport, hhost, ?_⟩
    simp [State.allAccepted, State.pending, hhost, hport]
  | succ n ih =>
    obtain ⟨u, hstep, hu, hall, hle⟩ := h.step_allAccepted
    obtain ⟨t, hrun, hport, hhost, ht⟩ := ih hu (by omega)
    exact ⟨t, by rw [runSteps_succ_of_next n hstep, hrun], hport, hhost, ht.trans hall⟩

/-- Two blocks that differ only in which events the consumer has taken, and in what is presented to them. -/
theorem undelivered_eq_iff {t u : State} : t.undelivered = u.undelivered ↔
    t.cfg = u.cfg ∧ t.run = u.run ∧ t.p = u.p ∧ t.s = u.s ∧ t.hook = u.hook ∧ t.err = u.err ∧
      t.taken ++ t.out = u.taken ++ u.out := by
  simp [State.undelivered]

/-! ### The same samples presented as words (R46, R228) -/

/-- The block with an empty port, to which the host is about to present, as words, the samples that waited. -/
def State.presentsWaiting (st : State) : State := { st with samplePort := [], host := sampleMoves st.samplePort }

theorem mem_sampleMoves {m : HostMove} {vs : List Sample} (h : m ∈ sampleMoves vs) : ∃ v, m = .word (encode (.sample v)) := by
  obtain ⟨v, -, rfl⟩ := List.mem_map.1 h
  exact ⟨v, rfl⟩

theorem flatMap_samples_sampleMoves (vs : List Sample) : (sampleMoves vs).flatMap HostMove.samples = vs := by
  rw [sampleMoves, List.flatMap_map]
  simp

theorem presentsWaiting_remaining (st : State) : st.presentsWaiting.remaining = st.samplePort.length := by
  simp [State.remaining, State.presentsWaiting, sampleMoves]

/-- A host that presents no sample leaves those that wait as the only pending ones. -/
theorem presentsWaiting_allAccepted {st : State} (hmoves : ∀ m ∈ st.host, m = .take ∨ m = .sampleTurn) :
    st.presentsWaiting.allAccepted = st.allAccepted := by
  have hnone : st.host.flatMap HostMove.samples = [] :=
    List.flatMap_eq_nil_iff.2 fun m hm => by rcases hmoves m hm with rfl | rfl <;> rfl
  have hpending : st.presentsWaiting.pending = st.pending := by
    rw [State.pending, State.pending, hnone, List.append_nil]
    exact flatMap_samples_sampleMoves st.samplePort
  rw [State.allAccepted, hpending]
  rfl

/-! ### The obligations -/

/-- Settles O59: fewer than two free slots is not ready, and then each word only adds its sample to those that wait. -/
theorem fullFifoHoldsSamples : Obligations.FullFifoHoldsSamples := by
  unfold Obligations.FullFifoHoldsSamples
  refine ⟨fun n st d vs hl hdepth hfull hhost => ?_, fun st hdepth hrun => sReady_of_infinite hrun hdepth⟩
  exact runSteps_of_not_ready n hl (sReady_eq_false_of_full hdepth hfull) hhost

/-- Settles O60: the block and the one that is presented the same samples as words are both undisturbed and have the same pending
samples, so both runs end in `allAccepted`. -/
theorem waitingSamplesAreTaken : Obligations.WaitingSamplesAreTaken := by
  unfold Obligations.WaitingSamplesAreTaken
  intro st hl hdepth hrun hmoves
  have hst : Undisturbed st := ⟨hl, hdepth, hrun, fun m hm => (hmoves m hm).imp_right .inl⟩
  have hwords : Undisturbed st.presentsWaiting := ⟨hl, hdepth, hrun, fun m hm => .inr (.inr (mem_sampleMoves hm))⟩
  obtain ⟨t, ht, hport, hhost, htall⟩ := hst.runSteps_drains _ le_rfl
  obtain ⟨u, hu, -, -, huall⟩ := hwords.runSteps_drains _ (presentsWaiting_remaining st).le
  have hsame : t.undelivered = u.undelivered := by rw [htall, huall, presentsWaiting_allAccepted hmoves]
  obtain ⟨-, hblock⟩ := undelivered_eq_iff.1 hsame
  exact ⟨t, u, ht, hport, hhost, hu, hblock⟩

/-- Settles O58: the step is `applyReset`, which leaves STATUS as it is right after reset. -/
theorem resetMidRun : Obligations.ResetMidRun := by
  unfold Obligations.ResetMidRun
  intro st rest hl hhost
  have hstep : step st = .next st.dropMove.applyReset := step_of_cons hl hhost
  have hrest : st.dropMove.applyReset.host = rest := by simp [hhost]
  exact ⟨_, hstep, rfl, rfl, rfl, rfl, rfl, rfl, status_resetWith st.cfg, rfl, rfl, hrest, rfl⟩

end Sys2Proof.Machine
